-- ==== Sys2Proof/Word.lean ====
section
/-!
DEFINITION. Word.lean: the word types of the Speck128 engine. The arithmetic on them (spec/00_scope.md R9) and the
byte order (R8) are in Machine/Arith.lean and Machine/Bytes.lean.
-/

namespace Sys2Proof

/-- One byte of a data register or of the window (spec/20_memory.md R50). -/
abbrev Byte := BitVec 8

/-- The word of the computation: 64 bits, unsigned (spec/00_scope.md R5, R9). -/
abbrev Word := BitVec 64

/-- The command word and the words of `STATUS` and `BLKSZ`: 32 bits (spec/30_encoding.md R80, spec/10_state.md section 5). -/
abbrev Word32 := BitVec 32

end Sys2Proof
end

