-- ==== Sys2Proof/Config.lean ====
section
/-!
DEFINITION. Config.lean: what an implementation of the engine fixes (spec/00_scope.md R5, R6) and the two parameters the
spec leaves OPEN. No instruction of this hardware leaves a value undefined (spec/93_implementation_defined.md part 1), so
there is no free value here.
-/

namespace Sys2Proof.Config

/-- Size of the window in bytes (spec/00_scope.md R6, spec/20_memory.md R50). -/
abbrev windowSize : Nat := 0x400

/-- The host access widths in bytes (spec/00_scope.md R6, spec/20_memory.md R55). -/
abbrev accessWidths : List Nat := [1, 2, 4, 8]

/-- Depth of the round-key file `RK` (spec/00_scope.md R6). -/
abbrev roundKeyDepth : Nat := 34

/-- The block size in bytes, the value of `BLKSZ` and the one legal declared buffer length (spec/00_scope.md R5). -/
abbrev blockBytes : Nat := 16

/-- Right rotation of the left branch, left rotation of the right branch (spec/00_scope.md R5). -/
abbrev leftBranchRotation : Nat := 8

/-- Left rotation of the right branch (spec/00_scope.md R5). -/
abbrev rightBranchRotation : Nat := 3

/-- `BASE`, the platform address of offset 0x000: OPEN in the spec (spec/00_scope.md R6, spec/92_eei_decisions.md D27), so
a constant without a body; no rule and no definition of the model depends on it. DESIGN CHOICE, safe, log entry 15. -/
opaque base : Nat

/-- `LANE_MAP`, the bus lane a window byte rides on: OPEN in the spec (spec/00_scope.md R6, spec/92_eei_decisions.md D27), so a
constant without a body; no rule and no definition of the model depends on it. DESIGN CHOICE, safe, log entry 15. -/
opaque laneMap : Nat → Nat

end Sys2Proof.Config
end

