-- ==== Sys2Proof/Machine/Arith.lean ====
section
/-!
DEFINITION. Machine/Arith.lean: the word arithmetic of the datapaths (spec/00_scope.md R9, spec/42_round_primitives.md R123):
modulo 2^64, no carry kept, no flag.
-/

namespace Sys2Proof.Machine

/-- `add64(a, b) = (a + b) mod 2^64` (spec/00_scope.md R9). -/
def add64 (a b : Word) : Word := BitVec.ofNat 64 (a.toNat + b.toNat)

/-- `sub64(a, b) = (a - b) mod 2^64`, that is `a + (2^64 - b) mod 2^64` (spec/00_scope.md R9). -/
def sub64 (a b : Word) : Word := BitVec.ofNat 64 (a.toNat + (2 ^ 64 - b.toNat))

/-- `xor64(a, b)`: bitwise exclusive-or (spec/00_scope.md R9). -/
def xor64 (a b : Word) : Word := a ^^^ b

/-- `ror64(a, r) = ((a >> r) | (a << (64 - r))) mod 2^64` (spec/00_scope.md R9; only `r` = 8 and 3 occur). -/
def ror64 (a : Word) (r : Nat) : Word := (a >>> r) ||| (a <<< (64 - r))

/-- `rol64(a, r) = ((a << r) | (a >> (64 - r))) mod 2^64` (spec/00_scope.md R9; only `r` = 3 and 8 occur). -/
def rol64 (a : Word) (r : Nat) : Word := (a <<< r) ||| (a >>> (64 - r))

end Sys2Proof.Machine
end

