-- ==== Sys2Proof/Syntax.lean ====
section
/-!
DEFINITION. Syntax.lean: the five commands of spec/opcode_table.json (spec/30_encoding.md R85), operands in the order of
the spec's command syntax (R88), destination first.
-/

namespace Sys2Proof

/-- A slot number, the 1-bit fields `SS` and `DS` (spec/30_encoding.md R81): the block buffers `BUF[0]` and `BUF[1]`. -/
inductive Slot where
  | b0
  | b1
  deriving DecidableEq, Repr

/-- A command (spec/30_encoding.md R85, R88). A declared length is a byte count (R84), kept as a natural number; that it fits
the 8-bit field is checked by `Instr.wf` (log entry 19). -/
inductive Instr where
  /-- `KEYX klen`: construct the context from the master key (spec/41_key_schedule.md R100). -/
  | keyx (klen : Nat)
  /-- `ENC b<ds>:<dlen>, b<ss>:<slen>`: encrypt one block (spec/43_cipher_context.md R140). -/
  | enc (ds : Slot) (dlen : Nat) (ss : Slot) (slen : Nat)
  /-- `DEC b<ds>:<dlen>, b<ss>:<slen>`: decrypt one block (spec/43_cipher_context.md R144). -/
  | dec (ds : Slot) (dlen : Nat) (ss : Slot) (slen : Nat)
  /-- `RNDF b<ds>:<dlen>, b<ss>:<slen>`: one forward round with the key in `KOP` (spec/42_round_primitives.md R124). -/
  | rndf (ds : Slot) (dlen : Nat) (ss : Slot) (slen : Nat)
  /-- `RNDI b<ds>:<dlen>, b<ss>:<slen>`: one inverse round with the key in `KOP` (spec/42_round_primitives.md R127). -/
  | rndi (ds : Slot) (dlen : Nat) (ss : Slot) (slen : Nat)
  deriving DecidableEq, Repr

end Sys2Proof
end

