-- ==== Sys2Proof/Machine/State.lean ====
section
/-!
DEFINITION. Machine/State.lean: the engine's state (spec/10_state.md R20, R41), the host's script and the port's answer (the
model's own, log entries 2 and 3), the reasons a step stops, and the state after reset (R45).
-/

namespace Sys2Proof.Machine

/-- The result code `ERR` (spec/10_state.md R26): codes 2 to 15 are never produced, so the two that exist are named
(spec/93_implementation_defined.md U10, log entry 8). -/
inductive ErrCode where
  /-- 0: OK. -/
  | ok
  /-- 1: `INVALID_KEY_LENGTH`. -/
  | invalidKeyLength
  deriving DecidableEq, Repr

/-- The non-zero values of `FCAUSE` (spec/10_state.md R27); no cause is `none` in `Engine.fcause` (log entry 8). -/
inductive FatalCause where
  /-- 1: the command word matches no row of the opcode table. -/
  | illcmd
  /-- 2: `ENC` or `DEC` with `NR = 0`. -/
  | noctx
  /-- 3: a declared buffer length other than 16. -/
  | buflen
  deriving DecidableEq, Repr

/-- `PHASE` (spec/10_state.md R41). -/
inductive Phase where
  | idle
  | ks
  | encr
  | decr
  | rnd
  deriving DecidableEq, Repr

/-- The hidden working registers (spec/10_state.md R40, R41), which no host access and no later command reads before a
command has written them (R42; log entry 1). -/
structure Sequencer where
  /-- `RIDX`, the round index, 6 bits (R40). -/
  ridx : BitVec 6
  /-- `X1`, the left word being transformed (R41). -/
  x1 : Word
  /-- `X2`, the right word being transformed, in `KEYX` the running right-hand word (R41). -/
  x2 : Word
  /-- `L[0..2]`, the key schedule's cyclic left-word array (R41). -/
  l : Vector Word 3
  /-- `M`, the left-word count of the running `KEYX`, 2 bits (R41). -/
  m : BitVec 2
  /-- `PHASE` (R41). -/
  phase : Phase
  deriving DecidableEq, Repr

/-- The state of the engine (spec/10_state.md R20) and its hidden working registers (R41). -/
structure Engine where
  /-- `KEY[0..31]`, the key staging buffer (R21). -/
  key : Vector Byte 32
  /-- `KOP[0..7]`, the round key of `RNDF` and `RNDI` (R22). -/
  kop : Vector Byte 8
  /-- `BUF[0]` (R23). -/
  buf0 : Vector Byte 16
  /-- `BUF[1]` (R23). -/
  buf1 : Vector Byte 16
  /-- `RK[0..33]`, the round-key file (R24). -/
  rk : Vector Word 34
  /-- `NR`, the round count of the context, 0 when there is none, 6 bits (R25; log entry 7). -/
  nr : BitVec 6
  /-- `ERR` (R26). -/
  err : ErrCode
  /-- `FCAUSE` (R27): `none` is the code 0. -/
  fcause : Option FatalCause
  /-- The hidden working registers (R41). -/
  seq : Sequencer
  deriving DecidableEq, Repr

/-- A step of the host (spec/00_scope.md R10, R14 item 1). The width of a write is the length of the sequence written, so
that the `|v| = n` of spec/20_memory.md R56 holds by form (log entry 16). -/
inductive HostStep where
  /-- `MemRead(off, n)` (spec/20_memory.md R55). -/
  | memRead (off n : Nat)
  /-- `MemWrite(off, |v|, v)` (spec/20_memory.md R56). -/
  | memWrite (off : Nat) (v : List Byte)
  /-- `Reset`, on the reset input (spec/70_reset_and_hazards.md R200). -/
  | reset
  deriving DecidableEq, Repr

/-- What the port answers the host (spec/20_memory.md R55 to R57): the model's own record, log entry 3. -/
inductive Answer where
  /-- No access has been answered since reset. -/
  | silent
  /-- An admitted read: the bytes it delivers. -/
  | data (bytes : List Byte)
  /-- An admitted write has completed without an error response. -/
  | done
  /-- A refused access: an error response, with no data (R57). -/
  | errorResponse
  deriving DecidableEq, Repr

/-- The machine: the engine, the host's steps still to be performed, oldest first (log entry 2), and the port's last answer
(log entry 3). -/
structure State extends Engine where
  /-- The sequence of host steps the port has still to perform, oldest first (spec/20_memory.md R63). -/
  script : List HostStep
  /-- The port's answer to the last access (spec/20_memory.md R55 to R57). -/
  answer : Answer
  deriving DecidableEq, Repr

/-- Why a step can stop with a fault. Both reasons need an `NR` that no reachable state holds (spec/10_state.md R33); both are
SAFE: the model stops where the spec gives no value (log entry 7). -/
inductive Fault where
  /-- Raised by an admitted read of `ALGNAME` when `NR` is not 0, 32, 33 or 34: the spec gives the name no value there
  (spec/10_state.md R32, spec/93_implementation_defined.md U1). Safe. -/
  | algorithmNameUndefined
  /-- Raised by `ENC` and `DEC` when `NR` is above 34: the round loop would read an entry past `RK[33]`, which does not exist
  (spec/10_state.md R24, spec/60_exceptions.md R182). Safe. -/
  | roundKeyPastFile
  deriving DecidableEq, Repr

/-- Why a step can be refused. A refused host access is no refusal of the model: the engine goes on (spec/60_exceptions.md
R177; log entry 5). -/
inductive Refusal where
  /-- Raised by `exec` for an instruction that has no meaning yet; no arm raises it. Safe. -/
  | notModelled (mnemonic : String)
  deriving DecidableEq, Repr

/-- The hidden working registers after reset (spec/10_state.md R45). -/
def Sequencer.reset : Sequencer :=
  { ridx := 0, x1 := 0, x2 := 0, l := Vector.replicate 3 0, m := 0, phase := .idle }

/-- Every element of the engine after reset: zero (spec/10_state.md R45). -/
def Engine.reset : Engine :=
  { key := Vector.replicate 32 0, kop := Vector.replicate 8 0, buf0 := Vector.replicate 16 0,
    buf1 := Vector.replicate 16 0, rk := Vector.replicate 34 0, nr := 0, err := .ok, fcause := none,
    seq := Sequencer.reset }

/-- The machine right after reset (spec/10_state.md R45): no host step is waiting and the port has answered nothing, both DESIGN
CHOICES of the model (log entries 2 and 3). -/
def State.reset : State := { toEngine := Engine.reset, script := [], answer := .silent }

end Sys2Proof.Machine
end

