-- ==== Sys2Proof/Machine/Flags.lean ====
section
/-!
DEFINITION. Machine/Flags.lean: the status flags and the `STATUS` word (spec/10_state.md R26 to R28, R30). The datapaths
produce no arithmetic flags (spec/42_round_primitives.md R123).
-/

namespace Sys2Proof.Machine

/-- The 4-bit code of `ERR` (spec/10_state.md R26). -/
def errBits : ErrCode → BitVec 4
  | .ok => 0
  | .invalidKeyLength => 1

/-- The 4-bit code of `FCAUSE` (spec/10_state.md R27). -/
def fcauseBits : Option FatalCause → BitVec 4
  | none => 0
  | some .illcmd => 1
  | some .noctx => 2
  | some .buflen => 3

/-- `VALID`: a context exists, `NR != 0` (spec/10_state.md R28). -/
def validFlag (e : Engine) : Bool := e.nr != 0

/-- `FATAL`: the engine is in the fatal state, `FCAUSE != 0` (spec/10_state.md R28, spec/60_exceptions.md R175). -/
def fatalFlag (e : Engine) : Bool := e.fcause.isSome

/-- `STATUS = (NR << 16) | (FCAUSE << 8) | (ERR << 4) | (FATAL << 1) | VALID`; every other bit reads 0 (spec/10_state.md R30). -/
def statusWord (e : Engine) : Word32 :=
  (e.nr.setWidth 32 <<< 16) ||| ((fcauseBits e.fcause).setWidth 32 <<< 8) ||| ((errBits e.err).setWidth 32 <<< 4) |||
    ((BitVec.ofBool (fatalFlag e)).setWidth 32 <<< 1) ||| (BitVec.ofBool (validFlag e)).setWidth 32

/-- `ERR <- 0`, the flag effect of every command that completes (spec/10_state.md R26). -/
def setOk (e : Engine) : Engine := { e with err := .ok }

end Sys2Proof.Machine
end

