-- ==== Sys2Proof/Machine/Bytes.lean ====
section
/-!
DEFINITION. Machine/Bytes.lean: the byte order of the engine, big-endian throughout (spec/00_scope.md R8,
spec/20_memory.md R53), and byte sequences taken out of and put into fixed arrays.
-/

namespace Sys2Proof.Machine

/-- The number a byte sequence stands for, the byte at the lowest index the most significant (spec/00_scope.md R8). -/
def beNat (b : List Byte) : Nat := b.foldl (fun acc x => acc * 256 + x.toNat) 0

/-- `be64` (spec/00_scope.md R8); the engine applies it to sequences of 8 bytes only. -/
def be64 (b : List Byte) : Word := BitVec.ofNat 64 (beNat b)

/-- `be32` (spec/00_scope.md R8); the engine applies it to sequences of 4 bytes only. -/
def be32 (b : List Byte) : Word32 := BitVec.ofNat 32 (beNat b)

/-- `bytes64(v)`: byte `j` is `v[63-8j : 56-8j]` (spec/00_scope.md R8). -/
def bytes64 (v : Word) : List Byte :=
  [v.extractLsb' 56 8, v.extractLsb' 48 8, v.extractLsb' 40 8, v.extractLsb' 32 8,
   v.extractLsb' 24 8, v.extractLsb' 16 8, v.extractLsb' 8 8, v.extractLsb' 0 8]

/-- `bytes32(v)`: byte `j` is `v[31-8j : 24-8j]` (spec/00_scope.md R8). -/
def bytes32 (v : Word32) : List Byte :=
  [v.extractLsb' 24 8, v.extractLsb' 16 8, v.extractLsb' 8 8, v.extractLsb' 0 8]

/-- The `len` bytes of a sequence from index `start` on, the `A[start..start+len-1]` of spec/00_scope.md R10. -/
def slice (b : List Byte) (start len : Nat) : List Byte := (b.drop start).take len

/-- An array of `n` entries filled from a sequence, zero past the sequence's end. -/
def padTo {w : Nat} (n : Nat) (l : List (BitVec w)) : Vector (BitVec w) n := Vector.ofFn fun i : Fin n => l.getD i 0

/-- Array `v` with the sequence `bs` stored from index `start` on (spec/20_memory.md R56: `v[j]` into the byte at `off + j`). -/
def storeSeq {n : Nat} (v : Vector Byte n) (start : Nat) : List Byte → Vector Byte n
  | [] => v
  | b :: bs => storeSeq (v.setIfInBounds start b) (start + 1) bs

end Sys2Proof.Machine
end

