-- ==== Sys2Proof/Machine/Operands.lean ====
section
/-!
DEFINITION. Machine/Operands.lean: every operand form (spec/30_encoding.md section 2): slots, declared lengths, the round key
operand, the key bytes, the round keys of the context.
-/

namespace Sys2Proof.Machine

/-- `BUF[s]` (spec/10_state.md R23). -/
def readSlot (s : Slot) (e : Engine) : Vector Byte 16 :=
  match s with
  | .b0 => e.buf0
  | .b1 => e.buf1

/-- `BUF[s] <- v`; the other slot is not written (spec/10_state.md R23). -/
def writeSlot (s : Slot) (v : Vector Byte 16) (e : Engine) : Engine :=
  match s with
  | .b0 => { e with buf0 := v }
  | .b1 => { e with buf1 := v }

/-- `LoadBlock(s)`: left word `be64(BUF[s][0..7])`, right word `be64(BUF[s][8..15])` (spec/43_cipher_context.md R147). -/
def loadBlock (s : Slot) (e : Engine) : Word × Word :=
  (be64 (slice (readSlot s e).toList 0 8), be64 (slice (readSlot s e).toList 8 8))

/-- `StoreBlock(s, y1, y2)`: `BUF[s][0..7] <- bytes64(y1)`, `BUF[s][8..15] <- bytes64(y2)` (spec/43_cipher_context.md R148). -/
def storeBlock (s : Slot) (y : Word × Word) (e : Engine) : Engine :=
  writeSlot s (padTo 16 (bytes64 y.1 ++ bytes64 y.2)) e

/-- The round key operand `be64(KOP[0..7])` (spec/10_state.md R22). -/
def operandKey (e : Engine) : Word := be64 (slice e.kop.toList 0 8)

/-- The key bytes `KEY[0..klen-1]` (spec/41_key_schedule.md R100; bytes from `klen` up are not read, spec/10_state.md R21). -/
def keyBytes (klen : Nat) (e : Engine) : List Byte := slice e.key.toList 0 klen

/-- The round keys of the context, `RK[0..NR-1]`, in schedule order (spec/10_state.md R24). -/
def contextKeys (e : Engine) : List Word := e.rk.toList.take e.nr.toNat

/-- A key length `KEYX` accepts: 16, 24 or 32 (spec/41_key_schedule.md R102, R103). -/
def keyLengthOk (klen : Nat) : Bool := klen == 16 || klen == 24 || klen == 32

/-- The declared buffer lengths are both 16 (spec/30_encoding.md R83, spec/60_exceptions.md R176). -/
def bufferLengthsOk (dlen slen : Nat) : Bool := slen == Config.blockBytes && dlen == Config.blockBytes

end Sys2Proof.Machine
end

