-- ==== Sys2Proof/Machine/Ops.lean ====
section
/-!
DEFINITION. Machine/Ops.lean: the shared operations of the commands: raising the two failure classes
(spec/60_exceptions.md R172, R174), the fatal-state test (R175), completing a block command, reset. There is no return from
the fatal state other than reset (R175, R181).
-/

namespace Sys2Proof.Machine

/-- What a command's body makes of the engine. -/
abbrev EngineResult := Host.Outcome Engine Fault Refusal

/-- What a step makes of the machine. -/
abbrev StepResult := Host.Outcome State Fault Refusal

/-- `raise Recoverable(code)`: `ERR <- code`, nothing else changes (spec/60_exceptions.md R172). -/
def raiseRecoverable (code : ErrCode) (e : Engine) : Engine := { e with err := code }

/-- `raise Fatal(cause)`, the trap entry: `FCAUSE <- cause`, nothing else changes; nothing is saved and control goes nowhere
(spec/60_exceptions.md R174). -/
def raiseFatal (cause : FatalCause) (e : Engine) : Engine := { e with fcause := some cause }

/-- A command's body run on the engine, the host's side of the machine left alone. -/
def onEngine (body : Engine → EngineResult) (s : State) : StepResult :=
  match body s.toEngine with
  | .next e => .next { s with toEngine := e }
  | .fault r => .fault r
  | .refused r => .refused r

/-- A command: discarded in the fatal state (spec/60_exceptions.md R175, R178 item 2), else its body (log entry 11). -/
def runCommand (body : Engine → EngineResult) (s : State) : StepResult :=
  if fatalFlag s.toEngine then .next s else onEngine body s

/-- The end of a block command: `StoreBlock(DS, X1, X2)`, `ERR <- 0`, `PHASE <- IDLE`, with the words and the round index left
in `X1`, `X2`, `RIDX` (spec/43_cipher_context.md R140, R150; log entries 1 and 10). -/
def completeBlock (ds : Slot) (x : Word × Word) (ridx : BitVec 6) (e : Engine) : Engine :=
  setOk (storeBlock ds x { e with seq := { e.seq with x1 := x.1, x2 := x.2, ridx := ridx, phase := .idle } })

/-- The checks of `ENC` and `DEC` in their order, `NOCTX` then `BUFLEN` (spec/43_cipher_context.md R140, R144,
spec/60_exceptions.md R178), then the body on the round keys of the context; an `NR` past the file is unreachable and has no
value (log entry 7). -/
def withContext (dlen slen : Nat) (body : Engine → Engine) (e : Engine) : EngineResult :=
  if e.nr = 0 then .next (raiseFatal .noctx e)
  else if bufferLengthsOk dlen slen = false then .next (raiseFatal .buflen e)
  else if Config.roundKeyDepth < e.nr.toNat then .fault .roundKeyPastFile
  else .next (body e)

/-- The check of `RNDF` and `RNDI`: `BUFLEN` alone, no context needed (spec/42_round_primitives.md R124, R127). -/
def withBuffers (dlen slen : Nat) (body : Engine → Engine) (e : Engine) : EngineResult :=
  if bufferLengthsOk dlen slen = false then .next (raiseFatal .buflen e) else .next (body e)

/-- `Reset`: every element of the engine takes its reset value, whatever the state was (spec/70_reset_and_hazards.md R200);
the host's remaining steps stay, and the port has answered nothing since (log entry 3). -/
def resetEngine (s : State) : State := { s with toEngine := Engine.reset, answer := .silent }

end Sys2Proof.Machine
end

