-- ==== Sys2Proof/Machine/Round.lean ====
section
/-!
DEFINITION. Machine/Round.lean: the forward and the inverse round (spec/42_round_primitives.md R120, R121) and the two
single-round commands RNDF and RNDI (R124, R127).
-/

namespace Sys2Proof.Machine

/-- The forward round `Rf(k, x1, x2)`: the right branch uses the old `x2` and the new `x1'` (spec/42_round_primitives.md R120,
spec/90_conflicts.md C1). -/
def roundForward (k : Word) (x : Word × Word) : Word × Word :=
  let y1 := xor64 (add64 (ror64 x.1 Config.leftBranchRotation) x.2) k
  (y1, xor64 (rol64 x.2 Config.rightBranchRotation) y1)

/-- The inverse round `Ri(k, x1, x2)`: the right branch is undone first, and the left branch uses the new `x2'`
(spec/42_round_primitives.md R121). -/
def roundInverse (k : Word) (x : Word × Word) : Word × Word :=
  let y2 := ror64 (xor64 x.2 x.1) Config.rightBranchRotation
  (rol64 (sub64 (xor64 x.1 k) y2) Config.leftBranchRotation, y2)

/-- The body of RNDF: one forward round on `BUF[SS]` with the key in `KOP`, into `BUF[DS]` (spec/42_round_primitives.md R124).
`RIDX` is not used (spec/10_state.md R40). -/
def rndfBody (ds ss : Slot) (e : Engine) : Engine :=
  completeBlock ds (roundForward (operandKey e) (loadBlock ss e)) e.seq.ridx e

/-- The body of RNDI: one inverse round on `BUF[SS]` with the key in `KOP`, into `BUF[DS]` (spec/42_round_primitives.md R127). -/
def rndiBody (ds ss : Slot) (e : Engine) : Engine :=
  completeBlock ds (roundInverse (operandKey e) (loadBlock ss e)) e.seq.ridx e

/-- RNDF (spec/42_round_primitives.md R124). -/
def execRndf (ds : Slot) (dlen : Nat) (ss : Slot) (slen : Nat) (s : State) : Host.Outcome State Fault Refusal :=
  runCommand (withBuffers dlen slen (rndfBody ds ss)) s

/-- RNDI (spec/42_round_primitives.md R127). -/
def execRndi (ds : Slot) (dlen : Nat) (ss : Slot) (slen : Nat) (s : State) : Host.Outcome State Fault Refusal :=
  runCommand (withBuffers dlen slen (rndiBody ds ss)) s

end Sys2Proof.Machine
end

