-- ==== Sys2Proof/Machine/Cipher.lean ====
section
/-!
DEFINITION. Machine/Cipher.lean: the round-iterated wrapper (spec/43_cipher_context.md R141, R145), the commands ENC (R140) and
DEC (R144), and the accessor `Algorithm()` (spec/10_state.md R32).
-/

namespace Sys2Proof.Machine

/-- Encryption of the two words under the round keys, ascending, round 0 first (spec/43_cipher_context.md R141). -/
def encryptWords (rk : List Word) (x : Word × Word) : Word × Word := rk.foldl (fun y k => roundForward k y) x

/-- Decryption of the two words under the round keys, descending, last round key first (spec/43_cipher_context.md R145). -/
def decryptWords (rk : List Word) (x : Word × Word) : Word × Word := rk.reverse.foldl (fun y k => roundInverse k y) x

/-- The body of ENC: `RIDX` ends at `NR` (spec/43_cipher_context.md R140, R150). -/
def encBody (ds ss : Slot) (e : Engine) : Engine :=
  completeBlock ds (encryptWords (contextKeys e) (loadBlock ss e)) e.nr e

/-- The body of DEC: `RIDX` ends at 0 (spec/43_cipher_context.md R144, R150). -/
def decBody (ds ss : Slot) (e : Engine) : Engine :=
  completeBlock ds (decryptWords (contextKeys e) (loadBlock ss e)) 0 e

/-- ENC (spec/43_cipher_context.md R140). -/
def execEnc (ds : Slot) (dlen : Nat) (ss : Slot) (slen : Nat) (s : State) : Host.Outcome State Fault Refusal :=
  runCommand (withContext dlen slen (encBody ds ss)) s

/-- DEC (spec/43_cipher_context.md R144). -/
def execDec (ds : Slot) (dlen : Nat) (ss : Slot) (slen : Nat) (s : State) : Host.Outcome State Fault Refusal :=
  runCommand (withContext dlen slen (decBody ds ss)) s

/-- The bytes "Speck128/" in ASCII (spec/10_state.md R32). -/
def namePrefix : List Byte := [0x53, 0x70, 0x65, 0x63, 0x6b, 0x31, 0x32, 0x38, 0x2f]

/-- `ALGNAME[0..15]` as a function of `NR`: the name in ASCII, padded with four zero bytes; all zero without a context; no value
for any other `NR` (spec/10_state.md R32, spec/93_implementation_defined.md U1). -/
def algorithmName (nr : BitVec 6) : Option (List Byte) :=
  if nr = 0 then some (List.replicate 16 0)
  else if nr = 32 then some (namePrefix ++ [0x31, 0x32, 0x38, 0, 0, 0, 0])
  else if nr = 33 then some (namePrefix ++ [0x31, 0x39, 0x32, 0, 0, 0, 0])
  else if nr = 34 then some (namePrefix ++ [0x32, 0x35, 0x36, 0, 0, 0, 0])
  else none

end Sys2Proof.Machine
end

