-- ==== Sys2Proof/Machine/Schedule.lean ====
section
/-!
DEFINITION. Machine/Schedule.lean: the key schedule (spec/41_key_schedule.md R104 to R108) and the command KEYX (R100).
-/

namespace Sys2Proof.Machine

/-- The left-word count `m = klen / 8 - 1`: 1, 2, 3 (spec/41_key_schedule.md R102; the source's `m`, spec/00_scope.md R13). -/
def leftWords (klen : Nat) : Nat := klen / 8 - 1

/-- The round count `T = 31 + m`: 32, 33, 34 (spec/41_key_schedule.md R102). -/
def roundCount (klen : Nat) : Nat := 31 + leftWords klen

/-- The working values of one run of the schedule: the cyclic array `L`, the right-hand word `r`, the round keys so far. -/
structure Expansion where
  l : List Word
  r : Word
  rk : List Word
  deriving DecidableEq, Repr

/-- The parsed key: `L[j] = be64(key[8(m-1-j) .. 8(m-1-j)+7])`, `r = be64(key[8m .. 8m+7])`, `rk[0] = r`
(spec/41_key_schedule.md R104, R105, R106). -/
def parseKey (key : List Byte) : Expansion :=
  let m := leftWords key.length
  let r := be64 (slice key (8 * m) 8)
  { l := (List.range m).map fun j => be64 (slice key (8 * (m - 1 - j)) 8), r := r, rk := [r] }

/-- Iteration `i` of the schedule: with `s = i mod m`, `(L[s], r) = Rf(i, L[s], r)` and `rk[i+1] = r`; the round constant is
`i` itself (spec/41_key_schedule.md R106, R107). -/
def expandStep (m : Nat) (w : Expansion) (i : Nat) : Expansion :=
  let y := roundForward (BitVec.ofNat 64 i) (w.l.getD (i % m) 0, w.r)
  { l := w.l.set (i % m) y.1, r := y.2, rk := w.rk ++ [y.2] }

/-- The whole run: iterations 0 to `T - 2`, ascending (spec/41_key_schedule.md R106). -/
def expandKey (key : List Byte) : Expansion :=
  (List.range (roundCount key.length - 1)).foldl (expandStep (leftWords key.length)) (parseKey key)

/-- `KS(key)`, the round keys `rk[0..T-1]` of a key of 16, 24 or 32 bytes (spec/41_key_schedule.md R106). -/
def keySchedule (key : List Byte) : List Word := (expandKey key).rk

/-- The state a successful `KEYX` writes: `RK[0..T-1]`, zeros from `T` up, `NR`, `ERR = 0` (spec/41_key_schedule.md R108), and
in the hidden registers what the last micro-step leaves (R110; log entry 1). -/
def constructContext (klen : Nat) (e : Engine) : Engine :=
  let w := expandKey (keyBytes klen e)
  setOk { e with
    rk := padTo 34 w.rk
    nr := BitVec.ofNat 6 (roundCount klen)
    seq := { e.seq with
      ridx := BitVec.ofNat 6 (roundCount klen - 1)
      x2 := w.r
      l := Vector.ofFn fun j : Fin 3 => w.l.getD j e.seq.l[j]
      m := BitVec.ofNat 2 (leftWords klen)
      phase := .idle } }

/-- The body of KEYX: the length test first, the recoverable error with nothing else changed, or the new context
(spec/41_key_schedule.md R100, R103). -/
def keyxBody (klen : Nat) (e : Engine) : EngineResult :=
  if keyLengthOk klen = false then .next (raiseRecoverable .invalidKeyLength e) else .next (constructContext klen e)

/-- KEYX (spec/41_key_schedule.md R100). -/
def execKeyx (klen : Nat) (s : State) : Host.Outcome State Fault Refusal := runCommand (keyxBody klen) s

end Sys2Proof.Machine
end

