-- ==== Sys2Proof/Machine/Dispatch.lean ====
section
/-!
DEFINITION. Machine/Dispatch.lean: one arm per command, one meaning per arm (spec/30_encoding.md R85, column "semantics").
-/

namespace Sys2Proof.Machine

def exec (i : Instr) (s : State) : Host.Outcome State Fault Refusal :=
  match i with
  | .keyx klen => Sys2Proof.Machine.execKeyx klen s
  | .enc ds dlen ss slen => Sys2Proof.Machine.execEnc ds dlen ss slen s
  | .dec ds dlen ss slen => Sys2Proof.Machine.execDec ds dlen ss slen s
  | .rndf ds dlen ss slen => Sys2Proof.Machine.execRndf ds dlen ss slen s
  | .rndi ds dlen ss slen => Sys2Proof.Machine.execRndi ds dlen ss slen s

end Sys2Proof.Machine
end

