-- ==== Sys2Proof/WellFormed.lean ====
section
/-!
DEFINITION. WellFormed.lean: which commands have a word (spec/30_encoding.md R82, R83): every declared length 0 to 255 is a
legal encoding, and nothing else fits the 8-bit fields `LENA` and `LENB` (R81).
-/

namespace Sys2Proof

/-- The check of one declared length: it fits an 8-bit field (spec/30_encoding.md R81, R84). -/
def lengthFits (n : Nat) : Bool := decide (n < 256)

/-- A command is well-formed when each of its declared lengths fits its field (spec/30_encoding.md R82, R83). -/
def Instr.wf : Instr → Bool
  | .keyx klen => lengthFits klen
  | .enc _ dlen _ slen => lengthFits dlen && lengthFits slen
  | .dec _ dlen _ slen => lengthFits dlen && lengthFits slen
  | .rndf _ dlen _ slen => lengthFits dlen && lengthFits slen
  | .rndi _ dlen _ slen => lengthFits dlen && lengthFits slen

end Sys2Proof
end

