-- ==== Sys2Proof/Decode.lean ====
section
/-!
DEFINITION. Decode.lean: the command decoder, total on all 2^32 words (spec/30_encoding.md R85 to R87), and after it the
encoder (R88), both from the field table of R81.
-/

namespace Sys2Proof

/-- The five rows' names, as the first column of spec/30_encoding.md R85. -/
inductive Op where
  | keyx
  | enc
  | dec
  | rndf
  | rndi
  deriving DecidableEq, Repr

/-- Why a word is illegal, by the three classes of spec/30_encoding.md R87. -/
inductive Illegal where
  /-- `OPC` is 0x00 or 0x06 to 0xFF. -/
  | opcode
  /-- `OPC` is 0x01 to 0x05 and one of bits 15:10 is set. -/
  | reservedBits
  /-- `OPC` is 0x01 and bit 8, bit 9 or one of bits 31:24 is set. -/
  | formatKBits
  deriving DecidableEq, Repr

/-- What the decoder makes of a word: a command, or an illegal word rejected by name. -/
inductive Decoded where
  | command (i : Instr)
  | illegal (why : Illegal)
  deriving DecidableEq, Repr

/-- One row of the opcode map (spec/30_encoding.md R85): `w` selects it when `w & mask` is `pattern`, the spec's `match`. -/
structure OpcodeRow where
  op : Op
  mask : Word32
  pattern : Word32
  deriving DecidableEq, Repr

/-- The opcode map (spec/30_encoding.md R85). -/
def opcodeMap : List OpcodeRow :=
  [{ op := .keyx, mask := 0xFF00FFFF, pattern := 0x00000001 },
   { op := .enc, mask := 0x0000FCFF, pattern := 0x00000002 },
   { op := .dec, mask := 0x0000FCFF, pattern := 0x00000003 },
   { op := .rndf, mask := 0x0000FCFF, pattern := 0x00000004 },
   { op := .rndi, mask := 0x0000FCFF, pattern := 0x00000005 }]

/-- A word selects a row (spec/30_encoding.md R85). -/
def OpcodeRow.selects (row : OpcodeRow) (w : Word32) : Bool := w &&& row.mask == row.pattern

/-- `OPC = w[7:0]` (spec/30_encoding.md R81). -/
def fieldOPC (w : Word32) : Nat := (w.extractLsb' 0 8).toNat

/-- A one-bit slot field read as a slot number (spec/30_encoding.md R81). -/
def slotOfBit (b : Bool) : Slot := if b then .b1 else .b0

/-- `SS = w[8]` (spec/30_encoding.md R81). -/
def fieldSS (w : Word32) : Slot := slotOfBit (w.getLsbD 8)

/-- `DS = w[9]` (spec/30_encoding.md R81). -/
def fieldDS (w : Word32) : Slot := slotOfBit (w.getLsbD 9)

/-- `Z = w[15:10]` (spec/30_encoding.md R81). -/
def fieldZ (w : Word32) : Nat := (w.extractLsb' 10 6).toNat

/-- `LENA = w[23:16]`: `KLEN` or `SLEN` (spec/30_encoding.md R81). -/
def fieldLENA (w : Word32) : Nat := (w.extractLsb' 16 8).toNat

/-- `LENB = w[31:24]`: `DLEN` in format B (spec/30_encoding.md R81). -/
def fieldLENB (w : Word32) : Nat := (w.extractLsb' 24 8).toNat

/-- The command a selected row reads from a word (spec/30_encoding.md R81, R85). -/
def Op.read (w : Word32) : Op → Instr
  | .keyx => .keyx (fieldLENA w)
  | .enc => .enc (fieldDS w) (fieldLENB w) (fieldSS w) (fieldLENA w)
  | .dec => .dec (fieldDS w) (fieldLENB w) (fieldSS w) (fieldLENA w)
  | .rndf => .rndf (fieldDS w) (fieldLENB w) (fieldSS w) (fieldLENA w)
  | .rndi => .rndi (fieldDS w) (fieldLENB w) (fieldSS w) (fieldLENA w)

/-- Which class of spec/30_encoding.md R87 a word that selects no row is in. -/
def illegalClass (w : Word32) : Illegal :=
  if fieldOPC w = 0 ∨ 6 ≤ fieldOPC w then .opcode
  else if fieldZ w ≠ 0 then .reservedBits
  else .formatKBits

/-- `decode(w)`, total on all 2^32 words (spec/30_encoding.md R85 to R87): the row the word selects, else illegal. -/
def decode (w : Word32) : Decoded :=
  match opcodeMap.find? (·.selects w) with
  | some row => .command (row.op.read w)
  | none => .illegal (illegalClass w)

/-- The command word of the four bytes at 0x000 to 0x003 in offset order, most significant first (spec/30_encoding.md R80,
spec/20_memory.md R53), decoded. -/
def decodeBytes (b : List Byte) : Decoded := decode (Machine.be32 b)

/-- The bit of a slot number (spec/30_encoding.md R88). -/
def Slot.toNat : Slot → Nat
  | .b0 => 0
  | .b1 => 1

/-- A format B word: `(dlen << 24) | (slen << 16) | (ds << 9) | (ss << 8) | OPC` (spec/30_encoding.md R88). -/
def encodeB (opc : Word32) (ds : Slot) (dlen : Nat) (ss : Slot) (slen : Nat) : Word32 :=
  (BitVec.ofNat 32 dlen <<< 24) ||| (BitVec.ofNat 32 slen <<< 16) ||| (BitVec.ofNat 32 ds.toNat <<< 9) |||
    (BitVec.ofNat 32 ss.toNat <<< 8) ||| opc

/-- The word of a well-formed command (spec/30_encoding.md R88). -/
def encode : Instr → Word32
  | .keyx klen => (BitVec.ofNat 32 klen <<< 16) ||| 0x01
  | .enc ds dlen ss slen => encodeB 0x02 ds dlen ss slen
  | .dec ds dlen ss slen => encodeB 0x03 ds dlen ss slen
  | .rndf ds dlen ss slen => encodeB 0x04 ds dlen ss slen
  | .rndi ds dlen ss slen => encodeB 0x05 ds dlen ss slen

/-- The four bytes a table word of `nbits` bits is stored as at 0x000 to 0x003: the bits above `nbits` zero, most significant
byte first (spec/30_encoding.md R80). -/
def tableWordBytes (nbits w : Nat) : List Byte := Machine.bytes32 (BitVec.ofNat 32 (w % 2 ^ nbits))

/-- The command the decoder reads from a word numbered as spec/opcode_table.json numbers it: every row is one 32-bit word
(log entry 14). -/
def decodeTableWord (nbits w : Nat) : Option Instr :=
  match decodeBytes (tableWordBytes nbits w) with
  | .command i => some i
  | .illegal _ => none

end Sys2Proof
end

