-- ==== Sys2Proof/Machine/Window.lean ====
section
/-!
DEFINITION. Machine/Window.lean: the register window: the map (spec/20_memory.md R51), the byte image (R52), the admission of
host accesses (R55 to R58), and the two data movements of an admitted access.
-/

namespace Sys2Proof.Machine

/-- The named regions of the window (spec/20_memory.md R51). -/
inductive Region where
  | cmd
  | status
  | blksz
  | algName
  | kop
  | key
  | buf (s : Slot)
  | rk
  deriving DecidableEq, Repr

/-- The two rights (spec/20_memory.md R51). -/
inductive Right where
  | read
  | write
  deriving DecidableEq, Repr

/-- One row of the window map (spec/20_memory.md R51). -/
structure MapRow where
  region : Region
  first : Nat
  size : Nat
  rights : List Right
  widths : List Nat
  deriving DecidableEq, Repr

/-- The window map; every offset not listed is reserved (spec/20_memory.md R51). -/
def windowMap : List MapRow :=
  [{ region := .cmd, first := 0x000, size := 4, rights := [.write], widths := [4] },
   { region := .status, first := 0x004, size := 4, rights := [.read], widths := [4] },
   { region := .blksz, first := 0x008, size := 4, rights := [.read], widths := [4] },
   { region := .algName, first := 0x010, size := 16, rights := [.read], widths := [1, 2, 4, 8] },
   { region := .kop, first := 0x020, size := 8, rights := [.read, .write], widths := [1, 2, 4, 8] },
   { region := .key, first := 0x040, size := 32, rights := [.read, .write], widths := [1, 2, 4, 8] },
   { region := .buf .b0, first := 0x060, size := 16, rights := [.read, .write], widths := [1, 2, 4, 8] },
   { region := .buf .b1, first := 0x070, size := 16, rights := [.read, .write], widths := [1, 2, 4, 8] },
   { region := .rk, first := 0x100, size := 272, rights := [.read], widths := [1, 2, 4, 8] }]

/-- The row's region holds all the bytes `off .. off + n - 1` (spec/20_memory.md R55). -/
def MapRow.holds (row : MapRow) (off n : Nat) : Bool := decide (row.first ≤ off ∧ off + n ≤ row.first + row.size)

/-- An access of `n` bytes at `off` is admitted when its width exists, it is naturally aligned, it lies inside the window and
inside one region with the right, and the width is one of the region's: the region's row, else none
(spec/20_memory.md R55, R56, R58). -/
def admittedRow (right : Right) (off n : Nat) : Option MapRow :=
  if n ∈ Config.accessWidths ∧ off % n = 0 ∧ off + n ≤ Config.windowSize then
    windowMap.find? fun row => row.holds off n && row.rights.contains right && row.widths.contains n
  else none

/-- `BLKSZ`, hardwired to 16 in every state (spec/10_state.md R31). -/
def blockSizeWord : Word32 := 0x00000010

/-- Byte `j` of a region as a read sees it; none for `CMD`, for a `j` outside the region and for `ALGNAME` without a value
(spec/20_memory.md R52). -/
def regionByte (e : Engine) (j : Nat) : Region → Option Byte
  | .cmd => none
  | .status => (bytes32 (statusWord e))[j]?
  | .blksz => (bytes32 blockSizeWord)[j]?
  | .algName => (algorithmName e.nr).bind fun name => name[j]?
  | .kop => e.kop[j]?
  | .key => e.key[j]?
  | .buf s => (readSlot s e)[j]?
  | .rk => e.rk[j / 8]?.bind fun w => (bytes64 w)[j % 8]?

/-- `Byte(off)` (spec/20_memory.md R52): the byte a read sees at a window offset, none where the spec gives none. -/
def byteAt (e : Engine) (off : Nat) : Option Byte :=
  match windowMap.find? fun row => row.holds off 1 with
  | some row => regionByte e (off - row.first) row.region
  | none => none

/-- `Byte(off), Byte(off+1), ..., Byte(off+n-1)` (spec/20_memory.md R55), none when one of them has no value. -/
def readBytes (e : Engine) (off : Nat) : Nat → Option (List Byte)
  | 0 => some []
  | n + 1 =>
    match byteAt e off, readBytes e (off + 1) n with
    | some b, some bs => some (b :: bs)
    | _, _ => none

/-- An admitted data write: the sequence stored in the region's array from index `j` on, nothing else changed
(spec/20_memory.md R56). Only the four regions with the write right other than `CMD` are storage. -/
def writeRegion (e : Engine) (j : Nat) (bs : List Byte) : Region → Engine
  | .kop => { e with kop := storeSeq e.kop j bs }
  | .key => { e with key := storeSeq e.key j bs }
  | .buf s => writeSlot s (storeSeq (readSlot s e) j bs) e
  | .cmd => e
  | .status => e
  | .blksz => e
  | .algName => e
  | .rk => e

end Sys2Proof.Machine
end

