-- ==== Sys2Proof/Machine/Port.lean ====
section
/-!
DEFINITION. Machine/Port.lean: what the port makes of a host step: admission, command dispatch, data writes, reads, reset
(spec/20_memory.md R55 to R57, spec/30_encoding.md R86, spec/60_exceptions.md R177, R178, spec/70_reset_and_hazards.md R200).
-/

namespace Sys2Proof.Machine

/-- The three outcomes of a host step (spec/60_exceptions.md R177). -/
inductive Verdict where
  | performed
  | discarded
  | refused
  deriving DecidableEq, Repr

/-- Which outcome a host step has: a write that is admitted is discarded in the fatal state; a read that is admitted is performed
in every state; `Reset` is unconditional (spec/60_exceptions.md R175, R177, spec/70_reset_and_hazards.md R200). -/
def verdict (e : Engine) : HostStep → Verdict
  | .reset => .performed
  | .memRead off n => if (admittedRow .read off n).isSome then .performed else .refused
  | .memWrite off v =>
    if (admittedRow .write off v.length).isNone then .refused
    else if fatalFlag e then .discarded
    else .performed

/-- The port answers the access (spec/20_memory.md R55 to R57). -/
def answering (a : Answer) (s : State) : State := { s with answer := a }

/-- Command dispatch with the word `w` (spec/30_encoding.md R86): discarded in the fatal state, fatal `ILLCMD` for a word that
selects no row, else the command's rule, which `run` gives. -/
def dispatchWord (run : Instr → State → StepResult) (w : Word32) (s : State) : StepResult :=
  if fatalFlag s.toEngine then .next s
  else
    match decode w with
    | .illegal _ => .next { s with toEngine := raiseFatal .illcmd s.toEngine }
    | .command i => run i s

/-- An admitted read delivers the bytes of the image and changes no state of the engine (spec/20_memory.md R55); the name
without a value is the one read that stops (log entry 7). -/
def performRead (off n : Nat) (s : State) : StepResult :=
  match readBytes s.toEngine off n with
  | some bs => .next (answering (.data bs) s)
  | none => .fault .algorithmNameUndefined

/-- An admitted write outside the fatal state: to `CMD` it executes the command `be32(v)` (the bytes most significant first,
spec/20_memory.md R53), to a data region it stores the bytes (R56). It completes toward the host when its step ends (R62). -/
def performWrite (run : Instr → State → StepResult) (off : Nat) (v : List Byte) (s : State) : StepResult :=
  match admittedRow .write off v.length with
  | none => .next (answering .errorResponse s)
  | some row =>
    match row.region with
    | .cmd => dispatchWord run (be32 v) (answering .done s)
    | region => .next { answering .done s with toEngine := writeRegion s.toEngine (off - row.first) v region }

/-- One host step (spec/00_scope.md R14 item 1). A refused access is not performed: no state of the engine changes and the answer
is an error response without data (spec/20_memory.md R57; log entry 5). A discarded write changes nothing and is answered as
completed (spec/60_exceptions.md R175). -/
def performHostStep (run : Instr → State → StepResult) (h : HostStep) (s : State) : StepResult :=
  match verdict s.toEngine h with
  | .refused => .next (answering .errorResponse s)
  | .discarded => .next (answering .done s)
  | .performed =>
    match h with
    | .reset => .next (resetEngine s)
    | .memRead off n => performRead off n s
    | .memWrite off v => performWrite run off v s

/-- The next host step of the script taken and performed; with none waiting the engine does nothing, since nothing but the host
changes its state (spec/60_exceptions.md R187; log entry 4). -/
def takeHostStep (run : Instr → State → StepResult) (s : State) : StepResult :=
  match s.script with
  | [] => .next s
  | h :: rest => performHostStep run h { s with script := rest }

end Sys2Proof.Machine
end

