-- ==== Sys2Proof/Machine/Step.lean ====
section
/-!
DEFINITION. Machine/Step.lean: one step of the machine is one step of the host (spec/00_scope.md R14 item 1,
spec/20_memory.md R62, R63): the engine fetches nothing, a command arrives as the data of a write to `CMD` (spec/10_state.md R40).
-/

namespace Sys2Proof.Machine

/-- One step: the oldest host step still waiting is performed (spec/20_memory.md R63). -/
def step (s : State) : Host.Outcome State Fault Refusal := takeHostStep exec s

/-- `s` with the table word stored where `step` takes its next command: as the next host step, a 4-byte write to `CMD`
(spec/30_encoding.md R80; log entries 2 and 14). -/
def State.withFetchWord (s : State) (nbits w : Nat) : State :=
  { s with script := .memWrite 0x000 (tableWordBytes nbits w) :: s.script }

end Sys2Proof.Machine
end

