-- ==== Sys2Proof/Machine/Script.lean ====
section
/-!
DEFINITION. Machine/Script.lean: the spec's command pseudo-forms and its host script notation (spec/30_encoding.md R89, R90): how
a host spells the steps that stand in `State.script`.
-/

namespace Sys2Proof.Machine

/-- `KEYX128`, that is `KEYX 16` (spec/30_encoding.md R89). -/
def keyx128 : Instr := .keyx 16

/-- `KEYX192`, that is `KEYX 24` (spec/30_encoding.md R89). -/
def keyx192 : Instr := .keyx 24

/-- `KEYX256`, that is `KEYX 32` (spec/30_encoding.md R89). -/
def keyx256 : Instr := .keyx 32

/-- `ENC b<ds>, b<ss>`, that is `ENC b<ds>:16, b<ss>:16`; with one operand, `ENC b<s>`, both slots are `s`, as in the
three forms after it (spec/30_encoding.md R89). -/
def encBlock (ds ss : Slot) : Instr := .enc ds 16 ss 16

/-- `DEC b<ds>, b<ss>` (spec/30_encoding.md R89). -/
def decBlock (ds ss : Slot) : Instr := .dec ds 16 ss 16

/-- `RNDF b<ds>, b<ss>` (spec/30_encoding.md R89). -/
def rndfBlock (ds ss : Slot) : Instr := .rndf ds 16 ss 16

/-- `RNDI b<ds>, b<ss>` (spec/30_encoding.md R89). -/
def rndiBlock (ds ss : Slot) : Instr := .rndi ds 16 ss 16

/-- The host step that issues the word `w`, and with it `.word v` (spec/30_encoding.md R88, R90). -/
def issueWord (w : Word32) : HostStep := .memWrite 0x000 (bytes32 w)

/-- The host step that issues a command (spec/30_encoding.md R90). -/
def issue (i : Instr) : HostStep := issueWord (encode i)

/-- The first offset of a region (spec/20_memory.md R51). -/
def regionFirst (r : Region) : Option Nat := (windowMap.find? fun row => row.region == r).map MapRow.first

/-- The width a script uses in a region: 1 byte where the region has it, else 4, the one width of `CMD`, `STATUS` and `BLKSZ`
(spec/20_memory.md R51; which of several widths is irrelevant, R54). -/
def MapRow.scriptWidth (row : MapRow) : Nat := if row.widths.contains 1 then 1 else 4

/-- The row of region `r` when `n` bytes from offset `off` inside it can be spelled as whole accesses that are admitted with the
right; none where no series of admitted accesses moves exactly those bytes (spec/30_encoding.md R90, spec/20_memory.md R55, R56). -/
def scriptRow (right : Right) (r : Region) (off n : Nat) : Option MapRow :=
  windowMap.find? fun row => row.region == r && row.rights.contains right && decide (off + n ≤ row.size) &&
    decide (off % row.scriptWidth = 0) && decide (n % row.scriptWidth = 0)

/-- `WR name+off, hexbytes`, and `WR name, hexbytes` with `off` 0: a series of admitted accesses (spec/30_encoding.md R90). -/
def writeScript (r : Region) (off : Nat) (bs : List Byte) : Option (List HostStep) :=
  (scriptRow .write r off bs.length).map fun row =>
    (List.range (bs.length / row.scriptWidth)).map fun j =>
      .memWrite (row.first + off + row.scriptWidth * j) (slice bs (row.scriptWidth * j) row.scriptWidth)

/-- `RD name, n`: a series of admitted accesses (spec/30_encoding.md R90); `RD STATUS` and `RD BLKSZ` are one 4-byte read. -/
def readScript (r : Region) (n : Nat) : Option (List HostStep) :=
  (scriptRow .read r 0 n).map fun row =>
    (List.range (n / row.scriptWidth)).map fun j => .memRead (row.first + row.scriptWidth * j) row.scriptWidth

/-- `RD STATUS`: its one 4-byte read (spec/30_encoding.md R90). -/
def readStatus : HostStep := .memRead 0x004 4

/-- `RESET`: the reset step (spec/30_encoding.md R90, spec/70_reset_and_hazards.md R200). -/
def resetStep : HostStep := .reset

/-- The bytes an answer brings the host: those of a read, no bytes of a completed write or of Reset, and no result for a refused
access (spec/20_memory.md R55 to R57). -/
def Answer.bytes : Answer → Option (List Byte)
  | .silent => some []
  | .data bs => some bs
  | .done => some []
  | .errorResponse => none

/-- The steps of a script performed before whatever else waits: the bytes they return, in order, what a script shows after `->`
(spec/30_encoding.md R90), and the state they end in; none when an access is refused or a step stops. -/
def performScript : List HostStep → State → Option (List Byte × State)
  | [], s => some ([], s)
  | h :: hs, s =>
    match step { s with script := h :: s.script } with
    | .fault _ => none
    | .refused _ => none
    | .next t =>
      match t.answer.bytes, performScript hs t with
      | some bs, some (rest, u) => some (bs ++ rest, u)
      | _, _ => none

/-- `RD STATUS -> 0x........`: the integer `be32` of the four bytes (spec/30_encoding.md R90). -/
def shownStatus (s : State) : Option Word32 := (performScript [readStatus] s).map fun result => be32 result.1

end Sys2Proof.Machine
end

