-- ==== Sys2Proof/Machine/Sequencer.lean ====
section
/-!
DEFINITION. Machine/Sequencer.lean: the commands as micro-steps over the hidden working registers (spec/41_key_schedule.md
R110, spec/43_cipher_context.md R150). The normative meaning of a command is its rule (spec/92_eei_decisions.md D31), and that
is what `exec` runs; that the micro-steps reach the same state is stated in the obligations. A micro-step is none in a state
where the spec gives it no effect.
-/

namespace Sys2Proof.Machine

/-- KEYX `start`: `M <- m`, `L[j] <- be64(KEY[8(m-1-j) ..])` for `j < m`, `X2 <- be64(KEY[8m ..])`, `RK[0] <- X2`, `RIDX <- 0`,
`PHASE <- KS` (spec/41_key_schedule.md R110). -/
def ksStart (klen : Nat) (e : Engine) : Engine :=
  let m := leftWords klen
  let r := be64 (slice e.key.toList (8 * m) 8)
  { e with
    rk := e.rk.setIfInBounds 0 r
    seq := { e.seq with
      m := BitVec.ofNat 2 m
      l := Vector.ofFn fun j : Fin 3 =>
        if j < m then be64 (slice e.key.toList (8 * (m - 1 - j)) 8) else e.seq.l[j]
      x2 := r
      ridx := 0
      phase := .ks } }

/-- KEYX `step`: with `s = RIDX mod M`, `(L[s], X2) <- Rf(RIDX, L[s], X2)`, `RK[RIDX + 1] <- X2`, `RIDX <- RIDX + 1`
(spec/41_key_schedule.md R110). -/
def ksAdvance (e : Engine) : Option Engine :=
  let i := e.seq.ridx.toNat
  let s := i % e.seq.m.toNat
  match e.seq.l[s]? with
  | none => none
  | some ls =>
    let y := roundForward (e.seq.ridx.setWidth 64) (ls, e.seq.x2)
    some { e with
      rk := e.rk.setIfInBounds (i + 1) y.2
      seq := { e.seq with l := e.seq.l.setIfInBounds s y.1, x2 := y.2, ridx := e.seq.ridx + 1 } }

/-- KEYX `finish`: `RK[i] <- 0` for `31 + M <= i <= 33`, `NR <- 31 + M`, `ERR <- 0`, `PHASE <- IDLE`
(spec/41_key_schedule.md R110). -/
def ksFinish (e : Engine) : Engine :=
  { e with
    rk := Vector.ofFn fun i : Fin 34 => if 31 + e.seq.m.toNat ≤ i then 0 else e.rk[i]
    nr := BitVec.ofNat 6 (31 + e.seq.m.toNat)
    err := .ok
    seq := { e.seq with phase := .idle } }

/-- One micro-step of KEYX: `step` while `RIDX < 30 + M`, `finish` at `RIDX = 30 + M` (spec/41_key_schedule.md R110). -/
def ksMicro (e : Engine) : Option Engine :=
  if e.seq.phase ≠ .ks then none
  else if e.seq.ridx.toNat < 30 + e.seq.m.toNat then ksAdvance e
  else if e.seq.ridx.toNat = 30 + e.seq.m.toNat then some (ksFinish e)
  else none

/-- ENC and DEC `start`: `(X1, X2) <- LoadBlock(SS)`, `RIDX` and `PHASE` set (spec/43_cipher_context.md R150). -/
def blockStart (ss : Slot) (ridx : BitVec 6) (phase : Phase) (e : Engine) : Engine :=
  { e with seq := { e.seq with x1 := (loadBlock ss e).1, x2 := (loadBlock ss e).2, ridx := ridx, phase := phase } }

/-- ENC `start`: `RIDX <- 0`, `PHASE <- ENCR` (spec/43_cipher_context.md R150). -/
def encStart (ss : Slot) (e : Engine) : Engine := blockStart ss 0 .encr e

/-- DEC `start`: `RIDX <- NR - 1`, `PHASE <- DECR` (spec/43_cipher_context.md R150). -/
def decStart (ss : Slot) (e : Engine) : Engine := blockStart ss (e.nr - 1) .decr e

/-- ENC and DEC `finish`: `StoreBlock(DS, X1, X2)`, `ERR <- 0`, `PHASE <- IDLE` (spec/43_cipher_context.md R150). -/
def blockFinish (ds : Slot) (e : Engine) : Engine :=
  setOk { storeBlock ds (e.seq.x1, e.seq.x2) e with seq := { e.seq with phase := .idle } }

/-- One micro-step of ENC: `step` while `RIDX < NR`, `finish` at `RIDX = NR` (spec/43_cipher_context.md R150). -/
def encMicro (ds : Slot) (e : Engine) : Option Engine :=
  if e.seq.phase ≠ .encr then none
  else if e.seq.ridx < e.nr then
    match e.rk[e.seq.ridx.toNat]? with
    | none => none
    | some k =>
      let y := roundForward k (e.seq.x1, e.seq.x2)
      some { e with seq := { e.seq with x1 := y.1, x2 := y.2, ridx := e.seq.ridx + 1 } }
  else if e.seq.ridx = e.nr then some (blockFinish ds e)
  else none

/-- One micro-step of DEC: `step`, then `finish` if `RIDX = 0`, else `RIDX <- RIDX - 1` (spec/43_cipher_context.md R150). -/
def decMicro (ds : Slot) (e : Engine) : Option Engine :=
  if e.seq.phase ≠ .decr then none
  else
    match e.rk[e.seq.ridx.toNat]? with
    | none => none
    | some k =>
      let y := roundInverse k (e.seq.x1, e.seq.x2)
      let e' := { e with seq := { e.seq with x1 := y.1, x2 := y.2 } }
      if e.seq.ridx = 0 then some (blockFinish ds e')
      else some { e' with seq := { e'.seq with ridx := e.seq.ridx - 1 } }

/-- `n` micro-steps in a row. -/
def runMicro (micro : Engine → Option Engine) : Nat → Engine → Option Engine
  | 0, e => some e
  | n + 1, e =>
    match micro e with
    | some e' => runMicro micro n e'
    | none => none

end Sys2Proof.Machine
end

