-- ==== Sys2Proof/Safety.lean ====
section
/-!
DEFINITION. Safety.lean: what the spec calls a faulted run (spec/60_exceptions.md R175), the invariants of the state
(spec/10_state.md R33), and the comparisons of states the claims use.
-/

namespace Sys2Proof.Machine

/-- The engine is in the fatal state: the run has faulted, and such a state is never a final state of a correct run
(spec/60_exceptions.md R175, spec/93_implementation_defined.md U2; log entry 6). -/
abbrev Engine.Faulted (e : Engine) : Prop := e.fcause ≠ none

/-- A good final state: not in the fatal state (spec/60_exceptions.md R175). -/
abbrev State.Good (s : State) : Prop := s.fcause = none

/-- `NR` is 0, 32, 33 or 34 (spec/10_state.md R33 item 1). -/
abbrev Engine.RoundCountLegal (e : Engine) : Prop := e.nr = 0 ∨ e.nr = 32 ∨ e.nr = 33 ∨ e.nr = 34

/-- The round-key file is the key schedule of some key of the context's length, with zeros above, and all zero without a context
(spec/10_state.md R33 items 2 and 3). -/
def Engine.FileIsSchedule (e : Engine) : Prop :=
  (e.nr = 0 → ∀ i : Fin 34, e.rk[i] = 0) ∧
  (e.nr ≠ 0 → ∃ key : List Byte, key.length = 8 * (e.nr.toNat - 30) ∧ contextKeys e = keySchedule key ∧
    ∀ i : Fin 34, e.nr.toNat ≤ i → e.rk[i] = 0)

/-- The codes of `ERR` and `FCAUSE` are those that exist (spec/10_state.md R33 item 4). -/
abbrev Engine.CodesLegal (e : Engine) : Prop := (errBits e.err).toNat ≤ 1 ∧ (fcauseBits e.fcause).toNat ≤ 3

/-- `PHASE = IDLE` whenever a host access is performed (spec/10_state.md R42). -/
abbrev Engine.Idle (e : Engine) : Prop := e.seq.phase = .idle

/-- The invariants of the state (spec/10_state.md R33 items 1 to 4, R42). -/
def Engine.Inv (e : Engine) : Prop := e.RoundCountLegal ∧ e.FileIsSchedule ∧ e.CodesLegal ∧ e.Idle

/-- Two engines that agree on everything but the hidden working registers (spec/10_state.md R42). -/
def Engine.VisiblyEqual (a b : Engine) : Prop := { a with seq := b.seq } = b

/-- Two machines that agree on everything but the hidden working registers (spec/10_state.md R42). -/
def State.VisiblyEqual (a b : State) : Prop := a.toEngine.VisiblyEqual b.toEngine ∧ a.script = b.script ∧ a.answer = b.answer

/-- The host's loop over the round keys: before each command the key is written to `KOP`, then the one-round command is executed
(spec/43_cipher_context.md R153 item 7, spec/97_test_programs.md P3). -/
def hostRoundLoop (command : Instr) : List Word → State → StepResult
  | [], s => .next s
  | k :: ks, s =>
    match exec command { s with kop := padTo 8 (bytes64 k) } with
    | .next t => hostRoundLoop command ks t
    | .fault r => .fault r
    | .refused r => .refused r

end Sys2Proof.Machine
end

