-- ==== Sys2Proof/Certificates/Slice0/Obligations.lean ====
section
/-!
DEFINITION. Certificates/Slice0/Obligations.lean: the statements for the provers, in the order of spec/'s rules. A statement about
`step` speaks of the model's own `script` and `answer` (log entries 2 and 3) beside the spec's state.
-/

open Sys2Proof Sys2Proof.Machine

/-! ### Words, bytes and the two round functions -/

/-- spec/00_scope.md R8: `be64`, `bytes64`, `be32` and `bytes32` are big-endian, and each pair is inverse. -/
def Obligations.WordsAreBigEndian : Prop :=
  (∀ b0 b1 b2 b3 b4 b5 b6 b7 : Byte,
    (be64 [b0, b1, b2, b3, b4, b5, b6, b7]).toNat =
      b0.toNat * 2 ^ 56 + b1.toNat * 2 ^ 48 + b2.toNat * 2 ^ 40 + b3.toNat * 2 ^ 32 +
      b4.toNat * 2 ^ 24 + b5.toNat * 2 ^ 16 + b6.toNat * 2 ^ 8 + b7.toNat) ∧
  (∀ (v : Word) (j : Nat), j < 8 → (bytes64 v)[j]? = some (v.extractLsb' (56 - 8 * j) 8)) ∧
  (∀ b : List Byte, b.length = 8 → bytes64 (be64 b) = b) ∧
  (∀ v : Word, be64 (bytes64 v) = v) ∧
  (∀ b0 b1 b2 b3 : Byte,
    (be32 [b0, b1, b2, b3]).toNat = b0.toNat * 2 ^ 24 + b1.toNat * 2 ^ 16 + b2.toNat * 2 ^ 8 + b3.toNat) ∧
  (∀ (v : Word32) (j : Nat), j < 4 → (bytes32 v)[j]? = some (v.extractLsb' (24 - 8 * j) 8)) ∧
  (∀ b : List Byte, b.length = 4 → bytes32 (be32 b) = b) ∧
  (∀ v : Word32, be32 (bytes32 v) = v)

/-- spec/00_scope.md R9: the word operations by value, the rotations by value (shifts on naturals) and in the rule's bit form. -/
def Obligations.WordArithmeticWraps : Prop :=
  (∀ a b : Word, (add64 a b).toNat = (a.toNat + b.toNat) % 2 ^ 64) ∧
  (∀ a b : Word, ((sub64 a b).toNat : Int) = ((a.toNat : Int) - b.toNat) % 2 ^ 64) ∧
  (∀ (a b : Word) (i : Nat), i < 64 → (xor64 a b).getLsbD i = (a.getLsbD i ^^ b.getLsbD i)) ∧
  (∀ (a : Word) (r : Nat), 0 < r → r < 64 → (ror64 a r).toNat = (a.toNat >>> r ||| a.toNat <<< (64 - r)) % 2 ^ 64) ∧
  (∀ (a : Word) (r : Nat), 0 < r → r < 64 → (rol64 a r).toNat = (a.toNat <<< r ||| a.toNat >>> (64 - r)) % 2 ^ 64) ∧
  (∀ (a : Word) (r i : Nat), 0 < r → r < 64 → i < 64 → (ror64 a r).getLsbD i = a.getLsbD ((i + r) % 64)) ∧
  (∀ (a : Word) (r i : Nat), 0 < r → r < 64 → i < 64 → (rol64 a r).getLsbD i = a.getLsbD ((i + (64 - r)) % 64))

/-- spec/42_round_primitives.md R120, R121: the two rounds as formulas on 64-bit vectors. -/
def Obligations.RoundFormulas : Prop :=
  ∀ k x1 x2 : Word,
    roundForward k (x1, x2) =
      ((x1.rotateRight 8 + x2) ^^^ k, x2.rotateLeft 3 ^^^ ((x1.rotateRight 8 + x2) ^^^ k)) ∧
    roundInverse k (x1, x2) =
      (((x1 ^^^ k) - (x2 ^^^ x1).rotateRight 3).rotateLeft 8, (x2 ^^^ x1).rotateRight 3)

/-- spec/42_round_primitives.md R122: each round undoes the other under the same key, so the forward round is a bijection. -/
def Obligations.RoundsAreInverse : Prop :=
  ∀ k : Word,
    (∀ x : Word × Word, roundInverse k (roundForward k x) = x) ∧
    (∀ x : Word × Word, roundForward k (roundInverse k x) = x) ∧
    Function.Bijective (roundForward k)

/-! ### Decoding and encoding -/

/-- spec/30_encoding.md R91: the worked encodings, all twenty-four rows: the bytes at 0x000 to 0x003, and what they decode to (none
for a row the table calls illegal). -/
def Obligations.WorkedEncodingsDecode : Prop :=
  ∀ row ∈ ([(0x00100001, [0x00, 0x10, 0x00, 0x01], some (Instr.keyx 16)),
      (0x00180001, [0x00, 0x18, 0x00, 0x01], some (Instr.keyx 24)),
      (0x00200001, [0x00, 0x20, 0x00, 0x01], some (Instr.keyx 32)),
      (0x00040001, [0x00, 0x04, 0x00, 0x01], some (Instr.keyx 4)),
      (0x00000001, [0x00, 0x00, 0x00, 0x01], some (Instr.keyx 0)),
      (0x10100002, [0x10, 0x10, 0x00, 0x02], some (Instr.enc .b0 16 .b0 16)),
      (0x10100202, [0x10, 0x10, 0x02, 0x02], some (Instr.enc .b1 16 .b0 16)),
      (0x10100102, [0x10, 0x10, 0x01, 0x02], some (Instr.enc .b0 16 .b1 16)),
      (0x10100302, [0x10, 0x10, 0x03, 0x02], some (Instr.enc .b1 16 .b1 16)),
      (0x10100003, [0x10, 0x10, 0x00, 0x03], some (Instr.dec .b0 16 .b0 16)),
      (0x10100103, [0x10, 0x10, 0x01, 0x03], some (Instr.dec .b0 16 .b1 16)),
      (0x10100203, [0x10, 0x10, 0x02, 0x03], some (Instr.dec .b1 16 .b0 16)),
      (0x10100004, [0x10, 0x10, 0x00, 0x04], some (Instr.rndf .b0 16 .b0 16)),
      (0x10100204, [0x10, 0x10, 0x02, 0x04], some (Instr.rndf .b1 16 .b0 16)),
      (0x10100005, [0x10, 0x10, 0x00, 0x05], some (Instr.rndi .b0 16 .b0 16)),
      (0x10100105, [0x10, 0x10, 0x01, 0x05], some (Instr.rndi .b0 16 .b1 16)),
      (0x100F0002, [0x10, 0x0f, 0x00, 0x02], some (Instr.enc .b0 16 .b0 15)),
      (0x11100002, [0x11, 0x10, 0x00, 0x02], some (Instr.enc .b0 17 .b0 16)),
      (0x0F0F0003, [0x0f, 0x0f, 0x00, 0x03], some (Instr.dec .b0 15 .b0 15)),
      (0x00000000, [0x00, 0x00, 0x00, 0x00], none),
      (0x00100006, [0x00, 0x10, 0x00, 0x06], none),
      (0x10100402, [0x10, 0x10, 0x04, 0x02], none),
      (0x00100101, [0x00, 0x10, 0x01, 0x01], none),
      (0x01100001, [0x01, 0x10, 0x00, 0x01], none)] : List (Word32 × List Byte × Option Instr)),
    bytes32 row.1 = row.2.1 ∧
    (match row.2.2 with
      | some i => decodeBytes row.2.1 = .command i ∧ encode i = row.1
      | none => ∃ why, decodeBytes row.2.1 = .illegal why)

/-- spec/30_encoding.md R81, R85, R88: the word of a well-formed command decodes to that command, every operand at every value its
field admits. -/
def Obligations.EncodeThenDecode : Prop :=
  ∀ i : Instr, i.wf = true → decode (encode i) = .command i

/-- spec/30_encoding.md R81, R85, R87: a word that decodes is the word of the command it decodes to, which is well-formed: no two
words are the same command, and no bit of a word is ignored. -/
def Obligations.DecodeDeterminesWord : Prop :=
  ∀ (w : Word32) (i : Instr), decode w = .command i → i.wf = true ∧ encode i = w

/-- spec/30_encoding.md R85: at most one row of the opcode map matches a word. -/
def Obligations.AtMostOneRowMatches : Prop :=
  ∀ (w : Word32) (a b : OpcodeRow), a ∈ opcodeMap → b ∈ opcodeMap →
    a.selects w = true → b.selects w = true → a = b

/-- spec/30_encoding.md R87: the illegal words are exactly its three classes, and one written to `CMD` raises `Fatal(ILLCMD)` and
changes nothing else of the engine. -/
def Obligations.IllegalWordsExactly : Prop :=
  (∀ w : Word32,
    (∃ why, decode w = .illegal why) ↔
      ((w.extractLsb' 0 8 = 0x00#8 ∨ 0x06#8 ≤ w.extractLsb' 0 8) ∨
       ((0x01#8 ≤ w.extractLsb' 0 8 ∧ w.extractLsb' 0 8 ≤ 0x05#8) ∧ w.extractLsb' 10 6 ≠ 0#6) ∨
       (w.extractLsb' 0 8 = 0x01#8 ∧
          (w.getLsbD 8 = true ∨ w.getLsbD 9 = true ∨ w.extractLsb' 24 8 ≠ 0#8)))) ∧
  (∀ (s : State) (v : List Byte) (rest : List HostStep) (why : Illegal),
    s.script = .memWrite 0x000 v :: rest → v.length = 4 → s.fcause = none → decode (be32 v) = .illegal why →
    ∃ t, step s = .next t ∧ t.toEngine = { s.toEngine with fcause := some .illcmd })

/-- spec/30_encoding.md R86, R80: what a step does with a 4-byte write of `v` to `CMD`. In the fatal state the word is discarded; a
word that decodes to a command is executed by `exec` (in a state whose script has moved on and whose port answers `done`, log
entries 2 and 3); an illegal word is fatal. -/
def Obligations.StepRunsTheDecodedCommand : Prop :=
  ∀ (s : State) (v : List Byte) (rest : List HostStep),
    s.script = .memWrite 0x000 v :: rest → v.length = 4 →
    (s.fcause ≠ none → step s = .next { s with script := rest, answer := .done }) ∧
    (s.fcause = none → ∀ i, decodeBytes v = .command i →
      step s = exec i { s with script := rest, answer := .done }) ∧
    (s.fcause = none → ∀ why, decodeBytes v = .illegal why →
      step s = .next { s with script := rest, answer := .done, fcause := some .illcmd })

/-- Log entry 14: the word that `withFetchWord` places is the next command the machine runs. -/
def Obligations.PlacedWordRunsNext : Prop :=
  ∀ (s : State) (nbits w : Nat) (i : Instr), s.fcause = none → decodeTableWord nbits w = some i →
    step (s.withFetchWord nbits w) = exec i { s with answer := .done }

/-! ### The commands -/

/-- spec/41_key_schedule.md R104, R105: the words of a key of 16, 24 or 32 bytes, by the table of R104. -/
def Obligations.KeyWordsInTheirOrder : Prop :=
  ∀ key : List Byte,
    (key.length = 16 → (parseKey key).l = [be64 (slice key 0 8)] ∧ (parseKey key).r = be64 (slice key 8 8)) ∧
    (key.length = 24 →
      (parseKey key).l = [be64 (slice key 8 8), be64 (slice key 0 8)] ∧ (parseKey key).r = be64 (slice key 16 8)) ∧
    (key.length = 32 →
      (parseKey key).l = [be64 (slice key 16 8), be64 (slice key 8 8), be64 (slice key 0 8)] ∧
      (parseKey key).r = be64 (slice key 24 8))

/-- spec/41_key_schedule.md R103: a key length other than 16, 24, 32 sets `ERR` to 1 and changes nothing else. -/
def Obligations.KeyxBadLengthSetsErrOnly : Prop :=
  ∀ (s : State) (klen : Nat), s.fcause = none → klen ≠ 16 → klen ≠ 24 → klen ≠ 32 →
    exec (.keyx klen) s = .next { s with err := .invalidKeyLength }

/-- spec/41_key_schedule.md R100, R106, R107, R108: `KEYX` on a length of 16, 24 or 32 completes. The round keys are related by the
recurrence of R106 over a family `l i` of left-word arrays (`l i` is `L` before iteration `i`), with the round constant `i`; the
entries from `T` up are 0; `NR` is `T`; `ERR` is 0. -/
def Obligations.KeyxConstructsTheContext : Prop :=
  ∀ (s : State) (klen : Nat), s.fcause = none → klen = 16 ∨ klen = 24 ∨ klen = 32 →
    ∃ t, exec (.keyx klen) s = .next t ∧ t.nr.toNat = 31 + (klen / 8 - 1) ∧ t.err = .ok ∧
      (∀ i, 31 + (klen / 8 - 1) ≤ i → i < 34 → t.rk[i]? = some 0) ∧
      ∃ (l : Nat → Nat → Word) (rk : Nat → Word),
        (∀ i, i < 31 + (klen / 8 - 1) → t.rk[i]? = some (rk i)) ∧
        (∀ j, j < klen / 8 - 1 → l 0 j = be64 (slice s.key.toList (8 * (klen / 8 - 1 - 1 - j)) 8)) ∧
        rk 0 = be64 (slice s.key.toList (8 * (klen / 8 - 1)) 8) ∧
        (∀ i, i + 1 < 31 + (klen / 8 - 1) →
          l (i + 1) (i % (klen / 8 - 1)) =
            xor64 (add64 (ror64 (l i (i % (klen / 8 - 1))) 8) (rk i)) (BitVec.ofNat 64 i) ∧
          rk (i + 1) = xor64 (rol64 (rk i) 3) (l (i + 1) (i % (klen / 8 - 1))) ∧
          (∀ j, j ≠ i % (klen / 8 - 1) → l (i + 1) j = l i j))

/-- spec/43_cipher_context.md R140, R141: `ENC`: no context is fatal `NOCTX`, tested first; a declared length other than 16 is fatal
`BUFLEN`; else it completes: `x i` is the pair of words before round `i`, from the block of `BUF[SS]` through the forward round
with `RK[0], RK[1], ..., RK[NR-1]` to the block written to `BUF[DS]`. -/
def Obligations.EncEncryptsTheBlock : Prop :=
  ∀ (s : State) (ds ss : Slot) (dlen slen : Nat), s.fcause = none →
    (s.nr = 0 → exec (.enc ds dlen ss slen) s = .next { s with fcause := some .noctx }) ∧
    (s.nr ≠ 0 → ¬(slen = 16 ∧ dlen = 16) → exec (.enc ds dlen ss slen) s = .next { s with fcause := some .buflen }) ∧
    (s.nr ≠ 0 → s.nr.toNat ≤ 34 → slen = 16 → dlen = 16 →
      ∃ (t : State) (x : Nat → Word × Word), exec (.enc ds dlen ss slen) s = .next t ∧
        x 0 = (be64 (slice (readSlot ss s.toEngine).toList 0 8), be64 (slice (readSlot ss s.toEngine).toList 8 8)) ∧
        (∀ i, i < s.nr.toNat → ∃ k, s.rk[i]? = some k ∧ x (i + 1) = roundForward k (x i)) ∧
        (readSlot ds t.toEngine).toList = bytes64 (x s.nr.toNat).1 ++ bytes64 (x s.nr.toNat).2 ∧
        t.err = .ok ∧ t.fcause = none)

/-- spec/43_cipher_context.md R144, R145: `DEC`: the same two checks; else it completes: `x (i + 1)` is the pair of words before the
inverse round with `RK[i]`, from the block of `BUF[SS]` (`x NR`) down to the block written to `BUF[DS]` (`x 0`). -/
def Obligations.DecDecryptsTheBlock : Prop :=
  ∀ (s : State) (ds ss : Slot) (dlen slen : Nat), s.fcause = none →
    (s.nr = 0 → exec (.dec ds dlen ss slen) s = .next { s with fcause := some .noctx }) ∧
    (s.nr ≠ 0 → ¬(slen = 16 ∧ dlen = 16) → exec (.dec ds dlen ss slen) s = .next { s with fcause := some .buflen }) ∧
    (s.nr ≠ 0 → s.nr.toNat ≤ 34 → slen = 16 → dlen = 16 →
      ∃ (t : State) (x : Nat → Word × Word), exec (.dec ds dlen ss slen) s = .next t ∧
        x s.nr.toNat =
          (be64 (slice (readSlot ss s.toEngine).toList 0 8), be64 (slice (readSlot ss s.toEngine).toList 8 8)) ∧
        (∀ i, i < s.nr.toNat → ∃ k, s.rk[i]? = some k ∧ x i = roundInverse k (x (i + 1))) ∧
        (readSlot ds t.toEngine).toList = bytes64 (x 0).1 ++ bytes64 (x 0).2 ∧
        t.err = .ok ∧ t.fcause = none)

/-- spec/42_round_primitives.md R124: `RNDF`: a declared length other than 16 is fatal `BUFLEN`; else, with or without a context, it
completes: the block of `BUF[SS]` through one forward round with `be64(KOP)`, into `BUF[DS]`. -/
def Obligations.RndfAppliesOneForwardRound : Prop :=
  ∀ (s : State) (ds ss : Slot) (dlen slen : Nat), s.fcause = none →
    (¬(slen = 16 ∧ dlen = 16) → exec (.rndf ds dlen ss slen) s = .next { s with fcause := some .buflen }) ∧
    (slen = 16 → dlen = 16 →
      ∃ (t : State) (y : Word × Word), exec (.rndf ds dlen ss slen) s = .next t ∧
        y = roundForward (be64 s.kop.toList)
          (be64 (slice (readSlot ss s.toEngine).toList 0 8), be64 (slice (readSlot ss s.toEngine).toList 8 8)) ∧
        (readSlot ds t.toEngine).toList = bytes64 y.1 ++ bytes64 y.2 ∧
        (∀ d, d ≠ ds → readSlot d t.toEngine = readSlot d s.toEngine) ∧
        t.err = .ok ∧ t.fcause = none ∧ t.kop = s.kop ∧ t.rk = s.rk ∧ t.nr = s.nr ∧ t.key = s.key)

/-- spec/42_round_primitives.md R127: `RNDI`, as `RNDF` with the inverse round. -/
def Obligations.RndiAppliesOneInverseRound : Prop :=
  ∀ (s : State) (ds ss : Slot) (dlen slen : Nat), s.fcause = none →
    (¬(slen = 16 ∧ dlen = 16) → exec (.rndi ds dlen ss slen) s = .next { s with fcause := some .buflen }) ∧
    (slen = 16 → dlen = 16 →
      ∃ (t : State) (y : Word × Word), exec (.rndi ds dlen ss slen) s = .next t ∧
        y = roundInverse (be64 s.kop.toList)
          (be64 (slice (readSlot ss s.toEngine).toList 0 8), be64 (slice (readSlot ss s.toEngine).toList 8 8)) ∧
        (readSlot ds t.toEngine).toList = bytes64 y.1 ++ bytes64 y.2 ∧
        (∀ d, d ≠ ds → readSlot d t.toEngine = readSlot d s.toEngine) ∧
        t.err = .ok ∧ t.fcause = none ∧ t.kop = s.kop ∧ t.rk = s.rk ∧ t.nr = s.nr ∧ t.key = s.key)

/-- spec/42_round_primitives.md R127, its law: with `KOP` unchanged, RNDF then RNDI gives the block back, and so does RNDI then RNDF,
for any slots. -/
def Obligations.SingleRoundsUndoEachOther : Prop :=
  ∀ (s : State) (a t u : Slot), s.fcause = none →
    (∃ s1 s2, exec (.rndf t 16 a 16) s = .next s1 ∧ exec (.rndi u 16 t 16) s1 = .next s2 ∧
      readSlot u s2.toEngine = readSlot a s.toEngine) ∧
    (∃ s1 s2, exec (.rndi t 16 a 16) s = .next s1 ∧ exec (.rndf u 16 t 16) s1 = .next s2 ∧
      readSlot u s2.toEngine = readSlot a s.toEngine)

/-- spec/43_cipher_context.md R146: with a context, ENC then DEC gives the block back, and so does DEC then ENC, for any slots; and
for the fixed context encryption is a bijection on 16-byte sequences: every block `c` is the ciphertext of exactly one block `p`
put in the source slot. -/
def Obligations.DecryptUndoesEncrypt : Prop :=
  ∀ (s : State) (a t u : Slot), s.fcause = none → s.nr ≠ 0 → s.nr.toNat ≤ 34 →
    (∃ s1 s2, exec (.enc t 16 a 16) s = .next s1 ∧ exec (.dec u 16 t 16) s1 = .next s2 ∧
      readSlot u s2.toEngine = readSlot a s.toEngine) ∧
    (∃ s1 s2, exec (.dec t 16 a 16) s = .next s1 ∧ exec (.enc u 16 t 16) s1 = .next s2 ∧
      readSlot u s2.toEngine = readSlot a s.toEngine) ∧
    (∀ c : Vector Byte 16, ∃! p : Vector Byte 16, ∃ s1,
      exec (.enc t 16 a 16) { s with toEngine := writeSlot a p s.toEngine } = .next s1 ∧ readSlot t s1.toEngine = c)

/-- spec/43_cipher_context.md R149: in place gives the bytes that out of place gives in the other slot, which leaves its source
slot as it was; for all four block commands, ENC and DEC with a context. -/
def Obligations.InPlaceEqualsOutOfPlace : Prop :=
  ∀ (s : State) (ss ds : Slot) (command : Slot → Nat → Slot → Nat → Instr), s.fcause = none → ds ≠ ss →
    (((command = Instr.enc ∨ command = Instr.dec) ∧ s.nr ≠ 0 ∧ s.nr.toNat ≤ 34) ∨
      command = Instr.rndf ∨ command = Instr.rndi) →
    ∃ t u, exec (command ss 16 ss 16) s = .next t ∧ exec (command ds 16 ss 16) s = .next u ∧
      readSlot ss t.toEngine = readSlot ds u.toEngine ∧ readSlot ss u.toEngine = readSlot ss s.toEngine

/-- spec/43_cipher_context.md R153 item 7: ENC equals NR single forward rounds with the round keys ascending, DEC equals NR single
inverse rounds with the round keys descending. -/
def Obligations.CipherIsIteratedSingleRounds : Prop :=
  ∀ s : State, s.fcause = none → s.nr ≠ 0 → s.nr.toNat ≤ 34 →
    (∃ t u, exec (.enc .b0 16 .b0 16) s = .next t ∧
      hostRoundLoop (.rndf .b0 16 .b0 16) (s.rk.toList.take s.nr.toNat) s = .next u ∧ u.buf0 = t.buf0) ∧
    (∃ t u, exec (.dec .b0 16 .b0 16) s = .next t ∧
      hostRoundLoop (.rndi .b0 16 .b0 16) (s.rk.toList.take s.nr.toNat).reverse s = .next u ∧ u.buf0 = t.buf0)

/-! ### Frames -/

/-- spec/10_state.md R34, spec/43_cipher_context.md R149: what a block command leaves unchanged: `KEY`, `KOP`, `RK`, `NR`, the slot
it does not name as destination, `L`, `M` (and `RIDX`, for RNDF and RNDI), the host's side, and every byte of the window outside
`STATUS` and the destination slot's region. `ERR` is kept or becomes 0; where `FCAUSE` changes nothing else does. The clauses on
the hidden `L`, `M` and `RIDX` are the model's reading (log entries 1 and 10), those on the host's side its own form (entries 2, 3). -/
def Obligations.BlockCommandFrame : Prop :=
  ∀ (s t : State) (i : Instr) (ds ss : Slot) (dlen slen : Nat),
    (i = .enc ds dlen ss slen ∨ i = .dec ds dlen ss slen ∨ i = .rndf ds dlen ss slen ∨ i = .rndi ds dlen ss slen) →
    exec i s = .next t →
    t.key = s.key ∧ t.kop = s.kop ∧ t.rk = s.rk ∧ t.nr = s.nr ∧
    (∀ d, d ≠ ds → readSlot d t.toEngine = readSlot d s.toEngine) ∧
    (t.err = s.err ∨ t.err = .ok) ∧
    (t.fcause ≠ s.fcause → t = { s with fcause := t.fcause }) ∧
    t.seq.l = s.seq.l ∧ t.seq.m = s.seq.m ∧
    ((i = .rndf ds dlen ss slen ∨ i = .rndi ds dlen ss slen) → t.seq.ridx = s.seq.ridx) ∧
    t.script = s.script ∧ t.answer = s.answer ∧
    (∀ first, regionFirst (.buf ds) = some first → ∀ off, ¬(0x004 ≤ off ∧ off < 0x008) →
      ¬(first ≤ off ∧ off < first + 16) → byteAt t.toEngine off = byteAt s.toEngine off)

/-- spec/10_state.md R34, spec/41_key_schedule.md R111 item 6: what `KEYX` leaves unchanged: `KEY`, `KOP`, both slots, `FCAUSE`, `X1`,
the host's side, and every byte of the window outside `STATUS`, `ALGNAME` and `RK`; with the recoverable error the context too. The
clause on the hidden `X1` is the model's reading (log entry 1), those on the host's side its own form (entries 2, 3). -/
def Obligations.KeyxFrame : Prop :=
  ∀ (s t : State) (klen : Nat), exec (.keyx klen) s = .next t →
    t.key = s.key ∧ t.kop = s.kop ∧ t.buf0 = s.buf0 ∧ t.buf1 = s.buf1 ∧ t.fcause = s.fcause ∧
    t.seq.x1 = s.seq.x1 ∧ t.script = s.script ∧ t.answer = s.answer ∧
    (t.err = .invalidKeyLength → t.rk = s.rk ∧ t.nr = s.nr) ∧
    (∀ off, ¬(0x004 ≤ off ∧ off < 0x008) → ¬(0x010 ≤ off ∧ off < 0x020) → ¬(0x100 ≤ off ∧ off < 0x210) →
      byteAt t.toEngine off = byteAt s.toEngine off)

/-- spec/60_exceptions.md R179: every command, in a state whose `NR` is at most 34, answers a next state that is the old one, or
differs from it in `FCAUSE` alone, or in `ERR` alone (then 1), or is a success: `ERR` is 0 and `FCAUSE` as before. -/
def Obligations.CommandsAreAllOrNothing : Prop :=
  ∀ (i : Instr) (s : State), s.nr.toNat ≤ 34 →
    ∃ t, exec i s = .next t ∧
      (t = s ∨ (∃ cause, t = { s with fcause := some cause }) ∨ t = { s with err := .invalidKeyLength } ∨
        (t.err = .ok ∧ t.fcause = s.fcause))

/-! ### Contexts -/

/-- spec/41_key_schedule.md R111 item 2: `KEYX klen` gives the same `RK` and `NR` from any two states that agree on `KEY[0..klen-1]`. -/
def Obligations.KeyxReadsDeclaredBytesOnly : Prop :=
  ∀ (a b t u : State) (klen : Nat), a.fcause = none → b.fcause = none → klen = 16 ∨ klen = 24 ∨ klen = 32 →
    a.key.toList.take klen = b.key.toList.take klen →
    exec (.keyx klen) a = .next t → exec (.keyx klen) b = .next u → t.rk = u.rk ∧ t.nr = u.nr

/-- spec/41_key_schedule.md R111 item 4: `KEYX` twice with the same `KEY` and `KLEN` gives the same state both times. -/
def Obligations.KeyxTwiceIsKeyxOnce : Prop :=
  ∀ (s t : State) (klen : Nat), exec (.keyx klen) s = .next t → exec (.keyx klen) t = .next t

/-- spec/41_key_schedule.md R109, spec/43_cipher_context.md R153 item 8: after a failed `KEYX`, `ENC` and `DEC` still work under the
earlier context and end in the state they would have ended in without it. -/
def Obligations.FailedKeyxKeepsTheContext : Prop :=
  ∀ (s : State) (klen : Nat) (ds ss : Slot), s.fcause = none → klen ≠ 16 → klen ≠ 24 → klen ≠ 32 →
    s.nr ≠ 0 → s.nr.toNat ≤ 34 →
    ∃ t, exec (.keyx klen) s = .next t ∧ t.err = .invalidKeyLength ∧ t.rk = s.rk ∧ t.nr = s.nr ∧
      exec (.enc ds 16 ss 16) t = exec (.enc ds 16 ss 16) s ∧ exec (.dec ds 16 ss 16) t = exec (.dec ds 16 ss 16) s

/-- spec/20_memory.md R65, spec/70_reset_and_hazards.md R207 items 2 and 8: `ENC` and `DEC` use the context whatever `KEY` and `KOP`
hold: with other bytes there they do the same and leave those bytes. -/
def Obligations.CipherIgnoresKeyAndOperand : Prop :=
  ∀ (s t : State) (ds ss : Slot) (dlen slen : Nat) (key : Vector Byte 32) (kop : Vector Byte 8),
    (exec (.enc ds dlen ss slen) s = .next t →
      exec (.enc ds dlen ss slen) { s with key := key, kop := kop } = .next { t with key := key, kop := kop }) ∧
    (exec (.dec ds dlen ss slen) s = .next t →
      exec (.dec ds dlen ss slen) { s with key := key, kop := kop } = .next { t with key := key, kop := kop })

/-- spec/20_memory.md R66: two callers that each keep to one slot do not disturb each other: any command among `ENC` and `DEC` in
place on the slot `a` and any in place on another slot `b` complete in either order, lead to the same state but for the hidden
working registers, and leave in each slot what its own command alone leaves there. -/
def Obligations.CallersOnOwnSlotsCommute : Prop :=
  ∀ (s : State) (a b : Slot) (first second : Slot → Nat → Slot → Nat → Instr), s.fcause = none → s.nr ≠ 0 →
    s.nr.toNat ≤ 34 → a ≠ b → (first = Instr.enc ∨ first = Instr.dec) → (second = Instr.enc ∨ second = Instr.dec) →
    ∃ p q u v, exec (first a 16 a 16) s = .next p ∧ exec (second b 16 b 16) p = .next q ∧
      exec (second b 16 b 16) s = .next u ∧ exec (first a 16 a 16) u = .next v ∧
      q.VisiblyEqual v ∧ readSlot a q.toEngine = readSlot a p.toEngine ∧ readSlot b q.toEngine = readSlot b u.toEngine

/-! ### The window -/

/-- spec/20_memory.md R51, R55, R57: the admitted reads, spelled out from the map: width 4 on `STATUS` and `BLKSZ`; widths 1, 2, 4, 8,
naturally aligned, inside `ALGNAME`, `KOP`, `KEY`, `BUF[0]`, `BUF[1]` or `RK`; every other read is refused. -/
def Obligations.AdmittedReadsExactly : Prop :=
  ∀ (e : Engine) (off n : Nat),
    verdict e (.memRead off n) = .performed ∧
        ((n = 4 ∧ (off = 0x004 ∨ off = 0x008)) ∨
         ((n = 1 ∨ n = 2 ∨ n = 4 ∨ n = 8) ∧ off % n = 0 ∧
          ((0x010 ≤ off ∧ off + n ≤ 0x020) ∨ (0x020 ≤ off ∧ off + n ≤ 0x028) ∨ (0x040 ≤ off ∧ off + n ≤ 0x060) ∨
           (0x060 ≤ off ∧ off + n ≤ 0x070) ∨ (0x070 ≤ off ∧ off + n ≤ 0x080) ∨ (0x100 ≤ off ∧ off + n ≤ 0x210)))) ∨
    verdict e (.memRead off n) = .refused ∧
        ¬((n = 4 ∧ (off = 0x004 ∨ off = 0x008)) ∨
         ((n = 1 ∨ n = 2 ∨ n = 4 ∨ n = 8) ∧ off % n = 0 ∧
          ((0x010 ≤ off ∧ off + n ≤ 0x020) ∨ (0x020 ≤ off ∧ off + n ≤ 0x028) ∨ (0x040 ≤ off ∧ off + n ≤ 0x060) ∨
           (0x060 ≤ off ∧ off + n ≤ 0x070) ∨ (0x070 ≤ off ∧ off + n ≤ 0x080) ∨ (0x100 ≤ off ∧ off + n ≤ 0x210))))

/-- spec/20_memory.md R51, R56, R57: a write is refused unless it is a 4-byte write to `CMD` or a write of width 1, 2, 4, 8, naturally
aligned, inside `KOP`, `KEY`, `BUF[0]` or `BUF[1]`; an admitted one is discarded in the fatal state, else performed. -/
def Obligations.AdmittedWritesExactly : Prop :=
  ∀ (e : Engine) (off : Nat) (v : List Byte),
    (verdict e (.memWrite off v) ≠ .refused ↔
      ((v.length = 4 ∧ off = 0x000) ∨
       ((v.length = 1 ∨ v.length = 2 ∨ v.length = 4 ∨ v.length = 8) ∧ off % v.length = 0 ∧
        ((0x020 ≤ off ∧ off + v.length ≤ 0x028) ∨ (0x040 ≤ off ∧ off + v.length ≤ 0x060) ∨
         (0x060 ≤ off ∧ off + v.length ≤ 0x070) ∨ (0x070 ≤ off ∧ off + v.length ≤ 0x080))))) ∧
    (verdict e (.memWrite off v) ≠ .refused →
      (verdict e (.memWrite off v) = .discarded ↔ e.fcause ≠ none))

/-- spec/20_memory.md R57, spec/60_exceptions.md R177: a refused access changes nothing of the engine, delivers no data, and answers
with an error response (log entry 5). -/
def Obligations.RefusedAccessChangesNothing : Prop :=
  ∀ (s : State) (h : HostStep) (rest : List HostStep), s.script = h :: rest → verdict s.toEngine h = .refused →
    step s = .next { s with script := rest, answer := .errorResponse }

/-- spec/20_memory.md R55, R60: an admitted read, in a state whose `NR` is legal, delivers the bytes of the image at its offsets in
order and changes nothing of the engine, in the fatal state as in any other. -/
def Obligations.AdmittedReadDeliversTheImage : Prop :=
  ∀ (s : State) (off n : Nat) (rest : List HostStep), s.script = .memRead off n :: rest →
    verdict s.toEngine (.memRead off n) = .performed → s.toEngine.RoundCountLegal →
    ∃ bs, step s = .next { s with script := rest, answer := .data bs } ∧ bs.length = n ∧
      ∀ j, j < n → byteAt s.toEngine (off + j) = bs[j]?

/-- spec/20_memory.md R56: an admitted write to a data region outside the fatal state stores its bytes at its offsets and changes no
other byte of the window and none of `RK`, `NR`, `ERR`, `FCAUSE` and the hidden registers. -/
def Obligations.DataWriteStoresItsBytes : Prop :=
  ∀ (s : State) (off : Nat) (v : List Byte) (rest : List HostStep), s.script = .memWrite off v :: rest →
    verdict s.toEngine (.memWrite off v) = .performed → off ≠ 0x000 →
    ∃ t, step s = .next t ∧ t.script = rest ∧ t.answer = .done ∧
      (∀ j, j < v.length → byteAt t.toEngine (off + j) = v[j]?) ∧
      (∀ o, ¬(off ≤ o ∧ o < off + v.length) → byteAt t.toEngine o = byteAt s.toEngine o) ∧
      t.rk = s.rk ∧ t.nr = s.nr ∧ t.err = s.err ∧ t.fcause = s.fcause ∧ t.seq = s.seq

/-- spec/20_memory.md R54: a data write of `2n` bytes leaves the same engine as the two writes of its halves. -/
def Obligations.WriteWidthIsIrrelevant : Prop :=
  ∀ (s : State) (off : Nat) (a b : List Byte), s.script = [] → a.length = b.length → off ≠ 0x000 →
    verdict s.toEngine (.memWrite off (a ++ b)) = .performed →
    ∃ t u w, step { s with script := [.memWrite off (a ++ b)] } = .next t ∧
      step { s with script := [.memWrite off a, .memWrite (off + a.length) b] } = .next u ∧ step u = .next w ∧
      w.toEngine = t.toEngine

/-- spec/10_state.md R28, R30: the fields of `STATUS`, bit by bit, with the codes that R26 and R27 give `ERR` and `FCAUSE`; the
reserved bits are 0. -/
def Obligations.StatusFields : Prop :=
  ∀ e : Engine,
    ((statusWord e).getLsbD 0 = true ↔ e.nr ≠ 0) ∧ ((statusWord e).getLsbD 1 = true ↔ e.fcause ≠ none) ∧
    (statusWord e).extractLsb' 2 2 = 0 ∧
    (statusWord e).extractLsb' 4 4 = (match e.err with | .ok => 0#4 | .invalidKeyLength => 1#4) ∧
    (statusWord e).extractLsb' 8 4 =
      (match e.fcause with | none => 0#4 | some .illcmd => 1#4 | some .noctx => 2#4 | some .buflen => 3#4) ∧
    (statusWord e).extractLsb' 12 4 = 0 ∧
    (statusWord e).extractLsb' 16 6 = e.nr ∧ (statusWord e).extractLsb' 22 10 = 0

/-- spec/10_state.md R31, spec/43_cipher_context.md R156: `MemRead(0x008, 4)` delivers `00 00 00 10` in every state. -/
def Obligations.BlockSizeReadsSixteen : Prop :=
  ∀ (s : State) (rest : List HostStep), s.script = .memRead 0x008 4 :: rest →
    step s = .next { s with script := rest, answer := .data [0x00, 0x00, 0x00, 0x10] }

/-- spec/10_state.md R32, spec/43_cipher_context.md R157: the sixteen bytes of `ALGNAME` by `NR`: "Speck128/128", "Speck128/192",
"Speck128/256" in ASCII and four zero bytes, all zero without a context; for any other `NR` no byte has a value, and an admitted
read of the region stops (log entry 7). -/
def Obligations.AlgorithmNameByRoundCount : Prop :=
  (∀ (e : Engine) (name : List Byte),
    (e.nr = 0 ∧ name = [0x00, 0x00, 0x00, 0x00, 0x00, 0x00, 0x00, 0x00, 0x00, 0x00, 0x00, 0x00, 0x00, 0x00, 0x00, 0x00]) ∨
    (e.nr = 32 ∧ name = [0x53, 0x70, 0x65, 0x63, 0x6b, 0x31, 0x32, 0x38, 0x2f, 0x31, 0x32, 0x38, 0x00, 0x00, 0x00, 0x00]) ∨
    (e.nr = 33 ∧ name = [0x53, 0x70, 0x65, 0x63, 0x6b, 0x31, 0x32, 0x38, 0x2f, 0x31, 0x39, 0x32, 0x00, 0x00, 0x00, 0x00]) ∨
    (e.nr = 34 ∧ name = [0x53, 0x70, 0x65, 0x63, 0x6b, 0x31, 0x32, 0x38, 0x2f, 0x32, 0x35, 0x36, 0x00, 0x00, 0x00, 0x00]) →
    ∀ j, j < 16 → byteAt e (0x010 + j) = name[j]?) ∧
  (∀ (s : State) (off n : Nat) (rest : List HostStep), ¬ s.toEngine.RoundCountLegal → s.script = .memRead off n :: rest →
    verdict s.toEngine (.memRead off n) = .performed → 0x010 ≤ off → off < 0x020 →
    step s = .fault .algorithmNameUndefined)

/-- spec/20_memory.md R52: the byte image, region by region. -/
def Obligations.ByteImage : Prop :=
  ∀ e : Engine,
    (∀ j, j < 4 → byteAt e (0x004 + j) = (bytes32 (statusWord e))[j]?) ∧
    (∀ j, j < 4 → byteAt e (0x008 + j) = (bytes32 0x00000010)[j]?) ∧
    (∀ name, algorithmName e.nr = some name → ∀ j, j < 16 → byteAt e (0x010 + j) = name[j]?) ∧
    (∀ j, j < 8 → byteAt e (0x020 + j) = e.kop[j]?) ∧
    (∀ j, j < 32 → byteAt e (0x040 + j) = e.key[j]?) ∧
    (∀ j, j < 16 → byteAt e (0x060 + j) = e.buf0[j]?) ∧
    (∀ j, j < 16 → byteAt e (0x070 + j) = e.buf1[j]?) ∧
    (∀ i j, i < 34 → j < 8 → ∃ w, e.rk[i]? = some w ∧ byteAt e (0x100 + 8 * i + j) = (bytes64 w)[j]?)

/-! ### Who may change what -/

/-- spec/10_state.md R34: only a successful `KEYX` outside the fatal state, and `Reset`, change `RK` or `NR`. -/
def Obligations.ContextChangesByKeyxOrReset : Prop :=
  ∀ s t : State, step s = .next t → t.rk ≠ s.rk ∨ t.nr ≠ s.nr →
    (∃ rest, s.script = .reset :: rest) ∨
    (∃ v rest klen, s.script = .memWrite 0x000 v :: rest ∧ v.length = 4 ∧ s.fcause = none ∧
      decode (be32 v) = .command (.keyx klen) ∧ (klen = 16 ∨ klen = 24 ∨ klen = 32))

/-- spec/10_state.md R21, R22, R34: only host writes to their region outside the fatal state, and `Reset`, change `KEY` or `KOP`. -/
def Obligations.KeyAndOperandChangeByHostOnly : Prop :=
  ∀ s t : State, step s = .next t → t.key ≠ s.key ∨ t.kop ≠ s.kop →
    (∃ rest, s.script = .reset :: rest) ∨
    (∃ off v rest, s.script = .memWrite off v :: rest ∧ s.fcause = none ∧
      ((t.key ≠ s.key ∧ t.kop = s.kop ∧ 0x040 ≤ off ∧ off + v.length ≤ 0x060) ∨
       (t.kop ≠ s.kop ∧ t.key = s.key ∧ 0x020 ≤ off ∧ off + v.length ≤ 0x028)))

/-- spec/10_state.md R23, R34: only a host write to it, a block command that names it as destination and completes, and `Reset`
change a slot. -/
def Obligations.SlotChangesByWriteOrDestination : Prop :=
  ∀ (s t : State) (d : Slot), step s = .next t → readSlot d t.toEngine ≠ readSlot d s.toEngine →
    (∃ rest, s.script = .reset :: rest) ∨
    (s.fcause = none ∧ ∃ off v rest first, s.script = .memWrite off v :: rest ∧ regionFirst (.buf d) = some first ∧
      first ≤ off ∧ off + v.length ≤ first + 16) ∨
    (s.fcause = none ∧ t.err = .ok ∧ ∃ v rest ss, s.script = .memWrite 0x000 v :: rest ∧ v.length = 4 ∧
      (decode (be32 v) = .command (.enc d 16 ss 16) ∨ decode (be32 v) = .command (.dec d 16 ss 16) ∨
       decode (be32 v) = .command (.rndf d 16 ss 16) ∨ decode (be32 v) = .command (.rndi d 16 ss 16)))

/-- spec/10_state.md R26, R27, R34: outside `Reset`, `ERR` changes only by a command that ends without a fatal cause, and `FCAUSE`
only from 0 and only by a write to `CMD`. -/
def Obligations.FlagsChangeByCommandsOnly : Prop :=
  ∀ s t : State, step s = .next t → (∀ rest, s.script ≠ .reset :: rest) →
    (t.err ≠ s.err → s.fcause = none ∧ t.fcause = none ∧
      ∃ v rest i, s.script = .memWrite 0x000 v :: rest ∧ v.length = 4 ∧ decode (be32 v) = .command i) ∧
    (t.fcause ≠ s.fcause → s.fcause = none ∧
      ∃ v rest, s.script = .memWrite 0x000 v :: rest ∧ v.length = 4)

/-- spec/60_exceptions.md R175: in the fatal state a command is discarded. -/
def Obligations.FatalStateDiscardsCommands : Prop :=
  ∀ (i : Instr) (s : State), s.fcause ≠ none → exec i s = .next s

/-- spec/60_exceptions.md R175, spec/20_memory.md R56, spec/10_state.md R33 item 5: the fatal state is absorbing. An admitted write,
to `CMD` or to a data region, changes nothing of the engine and is answered as completed; an admitted read delivers the image of
the state as it stands; any other access is refused; and no step but `Reset` changes the engine. -/
def Obligations.FatalStateIsAbsorbing : Prop :=
  ∀ (s : State) (h : HostStep) (rest : List HostStep), s.fcause ≠ none → s.script = h :: rest →
    (∀ off v, h = .memWrite off v → verdict s.toEngine h ≠ .refused →
      step s = .next { s with script := rest, answer := .done }) ∧
    (∀ off n bs, h = .memRead off n → verdict s.toEngine h ≠ .refused → readBytes s.toEngine off n = some bs →
      step s = .next { s with script := rest, answer := .data bs }) ∧
    (verdict s.toEngine h = .refused → step s = .next { s with script := rest, answer := .errorResponse }) ∧
    (∀ t, h ≠ .reset → step s = .next t → t.toEngine = s.toEngine ∧ t.script = rest)

/-- spec/60_exceptions.md R174: a step that takes the engine into the fatal state changes `FCAUSE` and nothing else of the engine,
and the write that caused it completes toward the host. -/
def Obligations.FatalEntryChangesFcauseOnly : Prop :=
  ∀ (s t : State) (cause : FatalCause), s.fcause = none → step s = .next t → t.fcause = some cause →
    t.toEngine = { s.toEngine with fcause := some cause } ∧ t.answer = .done

/-- Log entry 7: with an `NR` past the round-key file, which no reachable state holds, the round loop of ENC and DEC would read an
entry that does not exist (spec/10_state.md R24), and the command stops by name. -/
def Obligations.RoundCountPastTheFileStops : Prop :=
  ∀ (s : State) (ds ss : Slot), s.fcause = none → 34 < s.nr.toNat →
    exec (.enc ds 16 ss 16) s = .fault .roundKeyPastFile ∧ exec (.dec ds 16 ss 16) s = .fault .roundKeyPastFile

/-! ### Reset and the invariants -/

/-- spec/10_state.md R45: every element is zero after reset, and so is every byte the host reads, but for `BLKSZ`. -/
def Obligations.ResetStateIsZero : Prop :=
  (∀ i : Fin 32, State.reset.key[i] = 0) ∧ (∀ i : Fin 8, State.reset.kop[i] = 0) ∧
  (∀ i : Fin 16, State.reset.buf0[i] = 0) ∧ (∀ i : Fin 16, State.reset.buf1[i] = 0) ∧
  (∀ i : Fin 34, State.reset.rk[i] = 0) ∧ State.reset.nr = 0 ∧ State.reset.err = .ok ∧ State.reset.fcause = none ∧
  State.reset.seq.ridx = 0 ∧ State.reset.seq.x1 = 0 ∧ State.reset.seq.x2 = 0 ∧ (∀ i : Fin 3, State.reset.seq.l[i] = 0) ∧
  State.reset.seq.m = 0 ∧ State.reset.seq.phase = .idle ∧
  (∀ off b, byteAt State.reset.toEngine off = some b → b = if off = 0x00B then 0x10 else 0x00)

/-- spec/70_reset_and_hazards.md R200: `Reset` from any state gives every element of the engine its reset value; and no other step
clears the fatal state or the context. -/
def Obligations.ResetIsTotalAndTheOnlyExit : Prop :=
  (∀ (s : State) (rest : List HostStep), s.script = .reset :: rest →
    ∃ t, step s = .next t ∧ t.toEngine = State.reset.toEngine ∧ t.script = rest) ∧
  (∀ s t : State, step s = .next t →
    (s.fcause ≠ none ∧ t.fcause = none) ∨ (s.nr ≠ 0 ∧ t.nr = 0) → ∃ rest, s.script = .reset :: rest)

/-- spec/10_state.md R33: the invariants hold after reset. -/
def Obligations.InvariantsHoldAtReset : Prop := State.reset.toEngine.Inv

/-- spec/10_state.md R33 items 1 to 4, R42: every step keeps the invariants: `NR` is 0, 32, 33 or 34; the round-key file is all zero
without a context, else the key schedule of a key of the context's length with zeros above; the codes exist; `PHASE` is IDLE. -/
def Obligations.StepKeepsTheInvariants : Prop :=
  ∀ s t : State, s.toEngine.Inv → step s = .next t → t.toEngine.Inv

/-- spec/60_exceptions.md R170, R182: from a state that meets the invariants every step answers a next state: neither of the model's
faults can be reached, and nothing is refused (log entry 7). -/
def Obligations.NothingStopsTheEngine : Prop :=
  ∀ s : State, s.toEngine.Inv → ∃ t, step s = .next t

/-! ### The hidden working registers -/

/-- spec/10_state.md R42: no step reads a hidden register before writing it: machines that agree on everything else step to machines
that agree on everything else, and stop for the same reason (a step is never refused). -/
def Obligations.HiddenRegistersAreUnobservable : Prop :=
  ∀ a b : State, a.VisiblyEqual b →
    (∀ t, step a = .next t → ∃ u, step b = .next u ∧ t.VisiblyEqual u) ∧
    (∀ r, step a = .fault r → step b = .fault r) ∧ (∀ r, step a ≠ .refused r)

/-- spec/41_key_schedule.md R110: the micro-steps of `KEYX` reach exactly the state the command's rule gives: `start`, then 30 + M
times `step`, then `finish`. What the hidden registers hold afterwards is the model's reading (log entry 1). -/
def Obligations.KeyxMicroStepsReachTheRule : Prop :=
  ∀ (s : State) (klen : Nat), s.fcause = none → klen = 16 ∨ klen = 24 ∨ klen = 32 →
    ∃ t, exec (.keyx klen) s = .next t ∧
      runMicro ksMicro (30 + (klen / 8 - 1) + 1) (ksStart klen s.toEngine) = some t.toEngine

/-- spec/43_cipher_context.md R150: the micro-steps of `ENC` and of `DEC` reach exactly the state the command's rule gives: for ENC
`start`, NR times `step`, `finish`; for DEC `start`, then NR times `step`, the last of which finishes. What the hidden registers
hold afterwards is the model's reading (log entry 1). -/
def Obligations.BlockMicroStepsReachTheRule : Prop :=
  ∀ (s : State) (ds ss : Slot), s.fcause = none → s.nr ≠ 0 → s.nr.toNat ≤ 34 →
    (∃ t, exec (.enc ds 16 ss 16) s = .next t ∧
      runMicro (encMicro ds) (s.nr.toNat + 1) (encStart ss s.toEngine) = some t.toEngine) ∧
    (∃ t, exec (.dec ds 16 ss 16) s = .next t ∧
      runMicro (decMicro ds) s.nr.toNat (decStart ss s.toEngine) = some t.toEngine)

/-! ### The codes a host reads -/

/-- spec/10_state.md R26, R27, spec/60_exceptions.md R170: the codes that bits 7:4 (`ERR`) and 11:8 (`FCAUSE`) of `STATUS` show after
each outcome: 1 and 0 after a `KEYX` with a bad length; 0 and 0 after a `KEYX` or block command that completes; and, with `ERR` as it
was, 2 after `ENC` or `DEC` without a context, 3 after a block command with a wrong declared length (`ENC` and `DEC` with a context),
1 after an illegal word written to `CMD` (by the model's `script`, log entry 2). -/
def Obligations.StatusCodesOfEachOutcome : Prop :=
  (∀ (s : State) (klen : Nat), s.fcause = none →
    ∃ t, exec (.keyx klen) s = .next t ∧ (statusWord t.toEngine).extractLsb' 8 4 = 0#4 ∧
      (statusWord t.toEngine).extractLsb' 4 4 = if klen = 16 ∨ klen = 24 ∨ klen = 32 then 0#4 else 1#4) ∧
  (∀ (s : State) (command : Slot → Nat → Slot → Nat → Instr) (ds ss : Slot) (dlen slen : Nat), s.fcause = none →
    command = Instr.enc ∨ command = Instr.dec → s.nr.toNat ≤ 34 →
    ∃ t, exec (command ds dlen ss slen) s = .next t ∧
      (statusWord t.toEngine).extractLsb' 8 4 =
        (if s.nr = 0 then 2#4 else if slen = 16 ∧ dlen = 16 then 0#4 else 3#4) ∧
      (statusWord t.toEngine).extractLsb' 4 4 =
        if s.nr ≠ 0 ∧ slen = 16 ∧ dlen = 16 then 0#4 else (statusWord s.toEngine).extractLsb' 4 4) ∧
  (∀ (s : State) (command : Slot → Nat → Slot → Nat → Instr) (ds ss : Slot) (dlen slen : Nat), s.fcause = none →
    command = Instr.rndf ∨ command = Instr.rndi →
    ∃ t, exec (command ds dlen ss slen) s = .next t ∧
      (statusWord t.toEngine).extractLsb' 8 4 = (if slen = 16 ∧ dlen = 16 then 0#4 else 3#4) ∧
      (statusWord t.toEngine).extractLsb' 4 4 =
        if slen = 16 ∧ dlen = 16 then 0#4 else (statusWord s.toEngine).extractLsb' 4 4) ∧
  (∀ (s : State) (v : List Byte) (rest : List HostStep) (why : Illegal),
    s.script = .memWrite 0x000 v :: rest → v.length = 4 → s.fcause = none → decode (be32 v) = .illegal why →
    ∃ t, step s = .next t ∧ (statusWord t.toEngine).extractLsb' 8 4 = 1#4 ∧
      (statusWord t.toEngine).extractLsb' 4 4 = (statusWord s.toEngine).extractLsb' 4 4)

/-! ### The host script notation -/

/-- spec/30_encoding.md R90: performing the scripts that `RD`, `WR` and a command spell, `s.script` (log entry 2) untouched behind them.
`RD name, n` returns the region's first `n` bytes in order and changes nothing of the engine, for every readable region, in the fatal
state too (`STATUS` and `BLKSZ` in whole 4-byte reads); `WR name+off, hexbytes`, outside the fatal state, stores the bytes there and
changes no other byte of the window; a command is run. -/
def Obligations.ScriptNotationMeansItsAccesses : Prop :=
  (∀ (s : State) (row : MapRow) (n : Nat), row ∈ windowMap → Right.read ∈ row.rights → n ≤ row.size →
    (1 ∈ row.widths ∨ n % 4 = 0) → s.toEngine.RoundCountLegal →
    ∃ steps bs u, readScript row.region n = some steps ∧ performScript steps s = some (bs, u) ∧ bs.length = n ∧
      (∀ j, j < n → byteAt s.toEngine (row.first + j) = bs[j]?) ∧ u.toEngine = s.toEngine ∧ u.script = s.script) ∧
  (∀ (s : State) (row : MapRow) (off : Nat) (bs : List Byte), row ∈ windowMap → Right.write ∈ row.rights →
    row.region ≠ .cmd → off + bs.length ≤ row.size → s.fcause = none →
    ∃ steps u, writeScript row.region off bs = some steps ∧ performScript steps s = some ([], u) ∧ u.script = s.script ∧
      (∀ j, j < bs.length → byteAt u.toEngine (row.first + off + j) = bs[j]?) ∧
      (∀ o, ¬(row.first + off ≤ o ∧ o < row.first + off + bs.length) → byteAt u.toEngine o = byteAt s.toEngine o)) ∧
  (∀ (s : State) (i : Instr), i.wf = true → s.fcause = none →
    step { s with script := issue i :: s.script } = exec i { s with answer := .done }) ∧
  (∀ s : State, shownStatus s = some (statusWord s.toEngine))
end

