-- ==== Sys2Proof/Laws/Arith.lean ====
section
/-!
SUPPORT. Laws/Arith.lean: the word operations are those of bit vectors, and each undoes its counterpart (spec/00_scope.md R9).
-/

namespace Sys2Proof.Machine

/-- `ror64` is the rotation of the bit vector. -/
theorem ror64_eq (a : Word) {r : Nat} (h : r < 64) : ror64 a r = a.rotateRight r := by
  rw [BitVec.rotateRight_def]; simp [ror64, Nat.mod_eq_of_lt h]

/-- `rol64` is the rotation of the bit vector. -/
theorem rol64_eq (a : Word) {r : Nat} (h : r < 64) : rol64 a r = a.rotateLeft r := by
  rw [BitVec.rotateLeft_def]; simp [rol64, Nat.mod_eq_of_lt h]

/-- `add64` is addition modulo 2^64. -/
theorem add64_eq (a b : Word) : add64 a b = a + b := by
  apply BitVec.eq_of_toNat_eq; simp [add64]

/-- `sub64` is subtraction modulo 2^64. -/
theorem sub64_eq (a b : Word) : sub64 a b = a - b := by
  apply BitVec.eq_of_toNat_eq; have := b.isLt; simp [sub64]; omega

/-- A right rotation undoes a left rotation. -/
theorem ror64_rol64 (a : Word) {r : Nat} (h : r < 64) : ror64 (rol64 a r) r = a := by
  rw [ror64_eq _ h, rol64_eq _ h]
  apply BitVec.eq_of_getLsbD_eq
  intro i hi
  rw [BitVec.getLsbD_rotateRight, Nat.mod_eq_of_lt h]
  simp only [BitVec.getLsbD_rotateLeft, Nat.mod_eq_of_lt h]
  by_cases hc : i < 64 - r
  · simp [hc, show ¬ r + i < r by omega, show r + i < 64 by omega]
  · simp [hc, hi, show i - (64 - r) < r by omega, show 64 - r + (i - (64 - r)) = i by omega]

/-- A left rotation undoes a right rotation. -/
theorem rol64_ror64 (a : Word) {r : Nat} (h : r < 64) : rol64 (ror64 a r) r = a := by
  rw [ror64_eq _ h, rol64_eq _ h]
  apply BitVec.eq_of_getLsbD_eq
  intro i hi
  rw [BitVec.getLsbD_rotateLeft, Nat.mod_eq_of_lt h]
  simp only [BitVec.getLsbD_rotateRight, Nat.mod_eq_of_lt h]
  by_cases hc : i < r
  · simp [hc, show ¬ 64 - r + i < 64 - r by omega, show 64 - r + i < 64 by omega]
  · simp [hc, hi, show i - r < 64 - r by omega, show r + (i - r) = i by omega]

/-- Exclusive-or with the same word twice. -/
theorem xor64_xor64_cancel (a b : Word) : xor64 (xor64 a b) b = a := by simp [xor64]

/-- Adding back what was subtracted. -/
theorem add64_sub64 (a b : Word) : add64 (sub64 a b) b = a := by rw [add64_eq, sub64_eq, BitVec.sub_add_cancel]

/-- Subtracting what was added. -/
theorem sub64_add64 (a b : Word) : sub64 (add64 a b) b = a := by rw [add64_eq, sub64_eq, BitVec.add_sub_cancel]

end Sys2Proof.Machine
end

