-- ==== Sys2Proof/Laws/Bytes.lean ====
section
/-!
SUPPORT. Laws/Bytes.lean: the byte order (spec/00_scope.md R8): `be64` and `bytes64` undo each other, and a stored block is the
block loaded back (spec/43_cipher_context.md R147, R148).
-/

namespace Sys2Proof.Machine

@[simp] theorem bytes64_length (v : Word) : (bytes64 v).length = 8 := rfl

@[simp] theorem bytes32_length (v : Word32) : (bytes32 v).length = 4 := rfl

@[simp] theorem beNat_nil : beNat [] = 0 := rfl

/-- One more byte at the end is the new least significant byte. -/
theorem beNat_append_singleton (b : List Byte) (x : Byte) : beNat (b ++ [x]) = beNat b * 256 + x.toNat := by
  simp [beNat]

/-- A sequence of `n` bytes stands for a number below `256 ^ n`. -/
theorem beNat_lt (b : List Byte) : beNat b < 256 ^ b.length := by
  induction b using List.reverseRecOn with
  | nil => simp
  | append_singleton l x ih =>
    have hx : x.toNat < 256 := x.isLt
    rw [beNat_append_singleton, List.length_append, List.length_singleton, pow_succ]
    omega

/-- Eight bytes written out, most significant first (spec/00_scope.md R8). -/
theorem beNat_eight (b0 b1 b2 b3 b4 b5 b6 b7 : Byte) :
    beNat [b0, b1, b2, b3, b4, b5, b6, b7] =
      b0.toNat * 2 ^ 56 + b1.toNat * 2 ^ 48 + b2.toNat * 2 ^ 40 + b3.toNat * 2 ^ 32 +
      b4.toNat * 2 ^ 24 + b5.toNat * 2 ^ 16 + b6.toNat * 2 ^ 8 + b7.toNat := by
  simp only [beNat, List.foldl_cons, List.foldl_nil]
  omega

/-- Four bytes written out, most significant first (spec/00_scope.md R8). -/
theorem beNat_four (b0 b1 b2 b3 : Byte) :
    beNat [b0, b1, b2, b3] = b0.toNat * 2 ^ 24 + b1.toNat * 2 ^ 16 + b2.toNat * 2 ^ 8 + b3.toNat := by
  simp only [beNat, List.foldl_cons, List.foldl_nil]
  omega

/-- Eight bytes as a list of its entries. -/
theorem eq_eight_of_length {b : List Byte} (h : b.length = 8) :
    ∃ b0 b1 b2 b3 b4 b5 b6 b7, b = [b0, b1, b2, b3, b4, b5, b6, b7] := by
  match b, h with
  | [b0, b1, b2, b3, b4, b5, b6, b7], _ => exact ⟨b0, b1, b2, b3, b4, b5, b6, b7, rfl⟩

/-- Four bytes as a list of its entries. -/
theorem eq_four_of_length {b : List Byte} (h : b.length = 4) : ∃ b0 b1 b2 b3, b = [b0, b1, b2, b3] := by
  match b, h with
  | [b0, b1, b2, b3], _ => exact ⟨b0, b1, b2, b3, rfl⟩

/-- A byte of a word, as a number. -/
theorem extractLsb'_toNat8 (v : Word) (k : Nat) : (v.extractLsb' k 8).toNat = v.toNat / 2 ^ k % 256 := by
  simp [BitVec.extractLsb'_toNat, Nat.shiftRight_eq_div_pow]

/-- `be64` after `bytes64` (spec/00_scope.md R8). -/
@[simp] theorem be64_bytes64 (v : Word) : be64 (bytes64 v) = v := by
  apply BitVec.eq_of_toNat_eq
  have hv := v.isLt
  rw [be64, bytes64, beNat_eight, BitVec.toNat_ofNat]
  simp only [extractLsb'_toNat8]
  omega

/-- `bytes64` after `be64` on 8 bytes (spec/00_scope.md R8). -/
theorem bytes64_be64 {b : List Byte} (h : b.length = 8) : bytes64 (be64 b) = b := by
  obtain ⟨b0, b1, b2, b3, b4, b5, b6, b7, rfl⟩ := eq_eight_of_length h
  have := b0.isLt; have := b1.isLt; have := b2.isLt; have := b3.isLt
  have := b4.isLt; have := b5.isLt; have := b6.isLt; have := b7.isLt
  have e : (be64 [b0, b1, b2, b3, b4, b5, b6, b7]).toNat = beNat [b0, b1, b2, b3, b4, b5, b6, b7] := by
    rw [be64, BitVec.toNat_ofNat, beNat_eight]; omega
  simp only [bytes64, List.cons.injEq, and_true]
  refine ⟨?_, ?_, ?_, ?_, ?_, ?_, ?_, ?_⟩ <;> apply BitVec.eq_of_toNat_eq <;>
    rw [extractLsb'_toNat8, e, beNat_eight] <;> omega

/-- `be32` after `bytes32` (spec/00_scope.md R8). -/
@[simp] theorem be32_bytes32 (v : Word32) : be32 (bytes32 v) = v := by
  apply BitVec.eq_of_toNat_eq
  have hv := v.isLt
  rw [be32, bytes32, beNat_four, BitVec.toNat_ofNat]
  simp only [BitVec.extractLsb'_toNat, Nat.shiftRight_eq_div_pow]
  omega

/-- `bytes32` after `be32` on 4 bytes (spec/00_scope.md R8). -/
theorem bytes32_be32 {b : List Byte} (h : b.length = 4) : bytes32 (be32 b) = b := by
  obtain ⟨b0, b1, b2, b3, rfl⟩ := eq_four_of_length h
  have := b0.isLt; have := b1.isLt; have := b2.isLt; have := b3.isLt
  have e : (be32 [b0, b1, b2, b3]).toNat = beNat [b0, b1, b2, b3] := by
    rw [be32, BitVec.toNat_ofNat, beNat_four]; omega
  simp only [bytes32, List.cons.injEq, and_true]
  refine ⟨?_, ?_, ?_, ?_⟩ <;> apply BitVec.eq_of_toNat_eq <;>
    rw [BitVec.extractLsb'_toNat, Nat.shiftRight_eq_div_pow, e, beNat_four] <;> omega

/-- `padTo` keeps a sequence of the array's length. -/
theorem padTo_toList {w n : Nat} {l : List (BitVec w)} (h : l.length = n) : (padTo n l).toList = l := by
  apply List.ext_getElem
  · simp [h]
  · intro i h1 h2
    simp [padTo, List.getD, h2]

/-- Entry `i` of `padTo`: the sequence's entry, zero past its end. -/
@[simp] theorem padTo_getElem {w n : Nat} (l : List (BitVec w)) (i : Nat) (h : i < n) : (padTo n l)[i] = l.getD i 0 := by
  simp [padTo]

/-- The two halves of the bytes a block store writes. -/
theorem slice_append_left (a b : List Byte) (n : Nat) (h : a.length = n) : slice (a ++ b) 0 n = a := by
  simp [slice, ← h]

theorem slice_append_right (a b : List Byte) (n k : Nat) (h : a.length = n) (hk : b.length = k) :
    slice (a ++ b) n k = b := by
  subst h hk
  simp [slice]

end Sys2Proof.Machine
end

