-- ==== Sys2Proof/Laws/Decode.lean ====
section
/-!
SUPPORT. Laws/Decode.lean: what selecting a row of the opcode map says of a word's fields (spec/30_encoding.md R81, R85), and the
fields of an encoded word (R88).
-/

namespace Sys2Proof

/-- A masked comparison, bit by bit. -/
theorem and_eq_iff (w m p : Word32) :
    (w &&& m = p) ↔ ∀ i, i < 32 → (w.getLsbD i && m.getLsbD i) = p.getLsbD i := by
  constructor
  · rintro rfl i _; simp
  · intro h; apply BitVec.eq_of_getLsbD_eq; intro i hi; simpa using h i hi

/-- A field comparison, bit by bit. -/
theorem extract_eq_iff (w : Word32) (k n : Nat) (p : BitVec n) :
    (w.extractLsb' k n = p) ↔ ∀ i, i < n → w.getLsbD (k + i) = p.getLsbD i := by
  constructor
  · rintro rfl i hi; simp [hi]
  · intro h; apply BitVec.eq_of_getLsbD_eq; intro i hi; simpa [hi] using h i hi

/-- The mask of format B compares `OPC` and requires `Z` to be 0. -/
theorem maskB_iff (w : Word32) (p : BitVec 8) :
    (w &&& 0x0000FCFF = p.setWidth 32) ↔ w.extractLsb' 0 8 = p ∧ w.extractLsb' 10 6 = 0#6 := by
  rw [and_eq_iff, extract_eq_iff, extract_eq_iff]
  simp only [Nat.forall_lt_succ_right, Nat.not_lt_zero, false_imp_iff, implies_true, true_and]
  simp
  tauto

/-- The mask of format K compares `OPC` and requires `SS`, `DS`, `Z` and `LENB` to be 0. -/
theorem maskK_iff (w : Word32) (p : BitVec 8) :
    (w &&& 0xFF00FFFF = p.setWidth 32) ↔
      w.extractLsb' 0 8 = p ∧ w.extractLsb' 8 8 = 0#8 ∧ w.extractLsb' 24 8 = 0#8 := by
  rw [and_eq_iff, extract_eq_iff, extract_eq_iff, extract_eq_iff]
  simp only [Nat.forall_lt_succ_right, Nat.not_lt_zero, false_imp_iff, implies_true, true_and]
  simp
  tauto

/-- The opcode of each row (spec/30_encoding.md R85). -/
def Op.opcode : Op → BitVec 8
  | .keyx => 0x01
  | .enc => 0x02
  | .dec => 0x03
  | .rndf => 0x04
  | .rndi => 0x05

/-- A word with `OPC` 2 to 5 and `Z = 0` decodes by the row of its opcode. -/
theorem decode_formatB {op : Op} (hop : op ≠ .keyx) {w : Word32} (hopc : w.extractLsb' 0 8 = op.opcode)
    (hz : w.extractLsb' 10 6 = 0#6) : decode w = .command (op.read w) := by
  have hk : ∀ q : BitVec 8, op.opcode ≠ q → (w &&& 0xFF00FFFF = q.setWidth 32) = False := by
    intro q hq; simp only [eq_iff_iff, iff_false]; intro h; exact hq (hopc.symm.trans ((maskK_iff w q).mp h).1)
  have hb : ∀ q : BitVec 8, (w &&& 0x0000FCFF = q.setWidth 32) = (op.opcode = q) := by
    intro q; rw [maskB_iff, hopc, hz]; simp
  have k := hk 1; have b2 := hb 2; have b3 := hb 3; have b4 := hb 4; have b5 := hb 5
  cases op <;> simp [Op.opcode] at hop k b2 b3 b4 b5 <;>
    simp [decode, opcodeMap, OpcodeRow.selects, k, b2, b3, b4, b5, beq_eq_decide]

/-- A word with `OPC = 1` and `SS`, `DS`, `Z`, `LENB` all 0 decodes by the row of `KEYX`. -/
theorem decode_formatK {w : Word32} (hopc : w.extractLsb' 0 8 = 0x01#8) (hlow : w.extractLsb' 8 8 = 0#8)
    (hhigh : w.extractLsb' 24 8 = 0#8) : decode w = .command (.keyx (fieldLENA w)) := by
  have k : w &&& 0xFF00FFFF = 0x00000001 := (maskK_iff w 1).mpr ⟨hopc, hlow, hhigh⟩
  simp at k
  simp [decode, opcodeMap, OpcodeRow.selects, k, Op.read]

/-- A length that fits has no bit from bit 8 on. -/
theorem lengthFits_testBit {n : Nat} (h : lengthFits n = true) {i : Nat} (hi : 8 ≤ i) : n.testBit i = false := by
  apply Nat.testBit_lt_two_pow
  have : n < 2 ^ 8 := by simpa [lengthFits] using h
  exact lt_of_lt_of_le this (Nat.pow_le_pow_right (by decide) hi)

/-- A slot number has no bit from bit 1 on. -/
theorem slot_testBit (s : Slot) {i : Nat} (hi : 1 ≤ i) : s.toNat.testBit i = false := by
  apply Nat.testBit_lt_two_pow
  have : s.toNat < 2 ^ 1 := by cases s <;> decide
  exact lt_of_lt_of_le this (Nat.pow_le_pow_right (by decide) hi)

/-- A length that fits is its own 8-bit value. -/
theorem lengthFits_toNat {n : Nat} (h : lengthFits n = true) : (BitVec.ofNat 8 n).toNat = n := by
  have : n < 256 := by simpa [lengthFits] using h
  simp; omega

/-- The bits of a format B word (spec/30_encoding.md R88). -/
theorem encodeB_getLsbD (opc : BitVec 8) (ds ss : Slot) (dlen slen : Nat) (i : Nat) :
    (encodeB (opc.setWidth 32) ds dlen ss slen).getLsbD i =
      (decide (i < 32) && (decide (24 ≤ i) && dlen.testBit (i - 24) || (decide (16 ≤ i) && slen.testBit (i - 16)) ||
        (decide (9 ≤ i) && ds.toNat.testBit (i - 9)) || (decide (8 ≤ i) && ss.toNat.testBit (i - 8)) ||
        opc.getLsbD i)) := by
  by_cases hi : i < 32
  · have h1 : i - 24 < 32 := by omega
    have h2 : i - 16 < 32 := by omega
    have h3 : i - 9 < 32 := by omega
    have h4 : i - 8 < 32 := by omega
    simp only [encodeB, BitVec.getLsbD_or, BitVec.getLsbD_shiftLeft, BitVec.getLsbD_ofNat, BitVec.getLsbD_setWidth,
      hi, h1, h2, h3, h4, decide_true, Bool.true_and, ← Nat.not_lt, decide_not]
  · rw [BitVec.getLsbD_of_ge _ _ (by omega)]; simp [hi]

/-- `OPC` of a format B word. -/
theorem encodeB_opc (opc : BitVec 8) (ds ss : Slot) (dlen slen : Nat) :
    (encodeB (opc.setWidth 32) ds dlen ss slen).extractLsb' 0 8 = opc := by
  rw [extract_eq_iff]; intro i hi
  rw [encodeB_getLsbD]
  simp [show i < 32 by omega, show ¬ 24 ≤ i by omega, show ¬ 16 ≤ i by omega, show ¬ 9 ≤ i by omega,
    show ¬ 8 ≤ i by omega]

/-- `Z` of a format B word. -/
theorem encodeB_z (opc : BitVec 8) (ds ss : Slot) (dlen slen : Nat) :
    (encodeB (opc.setWidth 32) ds dlen ss slen).extractLsb' 10 6 = 0#6 := by
  rw [extract_eq_iff]; intro i hi
  rw [encodeB_getLsbD, slot_testBit ds (by omega), slot_testBit ss (by omega), BitVec.getLsbD_of_ge opc _ (by omega)]
  simp [show ¬ 24 ≤ 10 + i by omega, show ¬ 16 ≤ 10 + i by omega]

/-- `LENA` of a format B word. -/
theorem encodeB_lena (opc : BitVec 8) (ds ss : Slot) (dlen : Nat) {slen : Nat} (hs : lengthFits slen = true) :
    fieldLENA (encodeB (opc.setWidth 32) ds dlen ss slen) = slen := by
  have e : (encodeB (opc.setWidth 32) ds dlen ss slen).extractLsb' 16 8 = BitVec.ofNat 8 slen := by
    rw [extract_eq_iff]; intro i hi
    rw [encodeB_getLsbD, slot_testBit ds (by omega), slot_testBit ss (by omega), BitVec.getLsbD_of_ge opc _ (by omega),
      BitVec.getLsbD_ofNat]
    simp [show 16 + i < 32 by omega, show ¬ 24 ≤ 16 + i by omega, hi]
  rw [fieldLENA, e, lengthFits_toNat hs]

/-- `LENB` of a format B word. -/
theorem encodeB_lenb (opc : BitVec 8) (ds ss : Slot) {dlen slen : Nat} (hd : lengthFits dlen = true)
    (hs : lengthFits slen = true) : fieldLENB (encodeB (opc.setWidth 32) ds dlen ss slen) = dlen := by
  have e : (encodeB (opc.setWidth 32) ds dlen ss slen).extractLsb' 24 8 = BitVec.ofNat 8 dlen := by
    rw [extract_eq_iff]; intro i hi
    rw [encodeB_getLsbD, slot_testBit ds (by omega), slot_testBit ss (by omega), BitVec.getLsbD_of_ge opc _ (by omega),
      BitVec.getLsbD_ofNat, lengthFits_testBit hs (by omega)]
    simp [show 24 + i < 32 by omega, hi]
  rw [fieldLENB, e, lengthFits_toNat hd]

/-- `DS` of a format B word. -/
theorem encodeB_ds (opc : BitVec 8) (ds ss : Slot) (dlen slen : Nat) :
    fieldDS (encodeB (opc.setWidth 32) ds dlen ss slen) = ds := by
  rw [fieldDS, encodeB_getLsbD, slot_testBit ss (by decide), BitVec.getLsbD_of_ge opc _ (by decide)]
  cases ds <;> simp [Slot.toNat, slotOfBit]

/-- `SS` of a format B word. -/
theorem encodeB_ss (opc : BitVec 8) (ds ss : Slot) (dlen slen : Nat) :
    fieldSS (encodeB (opc.setWidth 32) ds dlen ss slen) = ss := by
  rw [fieldSS, encodeB_getLsbD, BitVec.getLsbD_of_ge opc _ (by decide)]
  cases ss <;> simp [Slot.toNat, slotOfBit]

end Sys2Proof
end

