-- ==== Sys2Proof/Laws/State.lean ====
section
/-!
SUPPORT. Laws/State.lean: one lemma per field per update of the engine and of the machine, so that no later proof unfolds a
record update.
-/

namespace Sys2Proof.Machine

/-! ### `setOk`, field by field -/

@[simp] theorem setOk_key (e : Engine) : (setOk e).key = e.key := rfl
@[simp] theorem setOk_kop (e : Engine) : (setOk e).kop = e.kop := rfl
@[simp] theorem setOk_buf0 (e : Engine) : (setOk e).buf0 = e.buf0 := rfl
@[simp] theorem setOk_buf1 (e : Engine) : (setOk e).buf1 = e.buf1 := rfl
@[simp] theorem setOk_rk (e : Engine) : (setOk e).rk = e.rk := rfl
@[simp] theorem setOk_nr (e : Engine) : (setOk e).nr = e.nr := rfl
@[simp] theorem setOk_err (e : Engine) : (setOk e).err = .ok := rfl
@[simp] theorem setOk_fcause (e : Engine) : (setOk e).fcause = e.fcause := rfl
@[simp] theorem setOk_seq (e : Engine) : (setOk e).seq = e.seq := rfl

/-! ### `raiseRecoverable`, field by field -/

@[simp] theorem raiseRecoverable_key (c : ErrCode) (e : Engine) : (raiseRecoverable c e).key = e.key := rfl
@[simp] theorem raiseRecoverable_kop (c : ErrCode) (e : Engine) : (raiseRecoverable c e).kop = e.kop := rfl
@[simp] theorem raiseRecoverable_buf0 (c : ErrCode) (e : Engine) : (raiseRecoverable c e).buf0 = e.buf0 := rfl
@[simp] theorem raiseRecoverable_buf1 (c : ErrCode) (e : Engine) : (raiseRecoverable c e).buf1 = e.buf1 := rfl
@[simp] theorem raiseRecoverable_rk (c : ErrCode) (e : Engine) : (raiseRecoverable c e).rk = e.rk := rfl
@[simp] theorem raiseRecoverable_nr (c : ErrCode) (e : Engine) : (raiseRecoverable c e).nr = e.nr := rfl
@[simp] theorem raiseRecoverable_err (c : ErrCode) (e : Engine) : (raiseRecoverable c e).err = c := rfl
@[simp] theorem raiseRecoverable_fcause (c : ErrCode) (e : Engine) : (raiseRecoverable c e).fcause = e.fcause := rfl
@[simp] theorem raiseRecoverable_seq (c : ErrCode) (e : Engine) : (raiseRecoverable c e).seq = e.seq := rfl

/-! ### `raiseFatal`, field by field -/

@[simp] theorem raiseFatal_key (c : FatalCause) (e : Engine) : (raiseFatal c e).key = e.key := rfl
@[simp] theorem raiseFatal_kop (c : FatalCause) (e : Engine) : (raiseFatal c e).kop = e.kop := rfl
@[simp] theorem raiseFatal_buf0 (c : FatalCause) (e : Engine) : (raiseFatal c e).buf0 = e.buf0 := rfl
@[simp] theorem raiseFatal_buf1 (c : FatalCause) (e : Engine) : (raiseFatal c e).buf1 = e.buf1 := rfl
@[simp] theorem raiseFatal_rk (c : FatalCause) (e : Engine) : (raiseFatal c e).rk = e.rk := rfl
@[simp] theorem raiseFatal_nr (c : FatalCause) (e : Engine) : (raiseFatal c e).nr = e.nr := rfl
@[simp] theorem raiseFatal_err (c : FatalCause) (e : Engine) : (raiseFatal c e).err = e.err := rfl
@[simp] theorem raiseFatal_fcause (c : FatalCause) (e : Engine) : (raiseFatal c e).fcause = some c := rfl
@[simp] theorem raiseFatal_seq (c : FatalCause) (e : Engine) : (raiseFatal c e).seq = e.seq := rfl

/-! ### `writeSlot` on slot b0, field by field -/

@[simp] theorem writeSlot_b0_key (v : Vector Byte 16) (e : Engine) : (writeSlot .b0 v e).key = e.key := rfl
@[simp] theorem writeSlot_b0_kop (v : Vector Byte 16) (e : Engine) : (writeSlot .b0 v e).kop = e.kop := rfl
@[simp] theorem writeSlot_b0_buf0 (v : Vector Byte 16) (e : Engine) : (writeSlot .b0 v e).buf0 = v := rfl
@[simp] theorem writeSlot_b0_buf1 (v : Vector Byte 16) (e : Engine) : (writeSlot .b0 v e).buf1 = e.buf1 := rfl
@[simp] theorem writeSlot_b0_rk (v : Vector Byte 16) (e : Engine) : (writeSlot .b0 v e).rk = e.rk := rfl
@[simp] theorem writeSlot_b0_nr (v : Vector Byte 16) (e : Engine) : (writeSlot .b0 v e).nr = e.nr := rfl
@[simp] theorem writeSlot_b0_err (v : Vector Byte 16) (e : Engine) : (writeSlot .b0 v e).err = e.err := rfl
@[simp] theorem writeSlot_b0_fcause (v : Vector Byte 16) (e : Engine) : (writeSlot .b0 v e).fcause = e.fcause := rfl
@[simp] theorem writeSlot_b0_seq (v : Vector Byte 16) (e : Engine) : (writeSlot .b0 v e).seq = e.seq := rfl

/-! ### `writeSlot` on slot b1, field by field -/

@[simp] theorem writeSlot_b1_key (v : Vector Byte 16) (e : Engine) : (writeSlot .b1 v e).key = e.key := rfl
@[simp] theorem writeSlot_b1_kop (v : Vector Byte 16) (e : Engine) : (writeSlot .b1 v e).kop = e.kop := rfl
@[simp] theorem writeSlot_b1_buf0 (v : Vector Byte 16) (e : Engine) : (writeSlot .b1 v e).buf0 = e.buf0 := rfl
@[simp] theorem writeSlot_b1_buf1 (v : Vector Byte 16) (e : Engine) : (writeSlot .b1 v e).buf1 = v := rfl
@[simp] theorem writeSlot_b1_rk (v : Vector Byte 16) (e : Engine) : (writeSlot .b1 v e).rk = e.rk := rfl
@[simp] theorem writeSlot_b1_nr (v : Vector Byte 16) (e : Engine) : (writeSlot .b1 v e).nr = e.nr := rfl
@[simp] theorem writeSlot_b1_err (v : Vector Byte 16) (e : Engine) : (writeSlot .b1 v e).err = e.err := rfl
@[simp] theorem writeSlot_b1_fcause (v : Vector Byte 16) (e : Engine) : (writeSlot .b1 v e).fcause = e.fcause := rfl
@[simp] theorem writeSlot_b1_seq (v : Vector Byte 16) (e : Engine) : (writeSlot .b1 v e).seq = e.seq := rfl

/-! ### What no slot write touches -/

@[simp] theorem writeSlot_key (s : Slot) (v : Vector Byte 16) (e : Engine) : (writeSlot s v e).key = e.key := by cases s <;> rfl
@[simp] theorem writeSlot_kop (s : Slot) (v : Vector Byte 16) (e : Engine) : (writeSlot s v e).kop = e.kop := by cases s <;> rfl
@[simp] theorem writeSlot_rk (s : Slot) (v : Vector Byte 16) (e : Engine) : (writeSlot s v e).rk = e.rk := by cases s <;> rfl
@[simp] theorem writeSlot_nr (s : Slot) (v : Vector Byte 16) (e : Engine) : (writeSlot s v e).nr = e.nr := by cases s <;> rfl
@[simp] theorem writeSlot_err (s : Slot) (v : Vector Byte 16) (e : Engine) : (writeSlot s v e).err = e.err := by cases s <;> rfl
@[simp] theorem writeSlot_fcause (s : Slot) (v : Vector Byte 16) (e : Engine) : (writeSlot s v e).fcause = e.fcause := by cases s <;> rfl
@[simp] theorem writeSlot_seq (s : Slot) (v : Vector Byte 16) (e : Engine) : (writeSlot s v e).seq = e.seq := by cases s <;> rfl

/-! ### What `storeBlock` does not touch -/

@[simp] theorem storeBlock_key (s : Slot) (y : Word × Word) (e : Engine) : (storeBlock s y e).key = e.key := by simp [storeBlock]
@[simp] theorem storeBlock_kop (s : Slot) (y : Word × Word) (e : Engine) : (storeBlock s y e).kop = e.kop := by simp [storeBlock]
@[simp] theorem storeBlock_rk (s : Slot) (y : Word × Word) (e : Engine) : (storeBlock s y e).rk = e.rk := by simp [storeBlock]
@[simp] theorem storeBlock_nr (s : Slot) (y : Word × Word) (e : Engine) : (storeBlock s y e).nr = e.nr := by simp [storeBlock]
@[simp] theorem storeBlock_err (s : Slot) (y : Word × Word) (e : Engine) : (storeBlock s y e).err = e.err := by simp [storeBlock]
@[simp] theorem storeBlock_fcause (s : Slot) (y : Word × Word) (e : Engine) : (storeBlock s y e).fcause = e.fcause := by simp [storeBlock]
@[simp] theorem storeBlock_seq (s : Slot) (y : Word × Word) (e : Engine) : (storeBlock s y e).seq = e.seq := by simp [storeBlock]

/-! ### The host side: `answering` and `resetEngine` -/

@[simp] theorem answering_toEngine (a : Answer) (s : State) : (answering a s).toEngine = s.toEngine := rfl
@[simp] theorem answering_script (a : Answer) (s : State) : (answering a s).script = s.script := rfl
@[simp] theorem answering_answer (a : Answer) (s : State) : (answering a s).answer = a := rfl
@[simp] theorem resetEngine_toEngine (s : State) : (resetEngine s).toEngine = Engine.reset := rfl
@[simp] theorem resetEngine_script (s : State) : (resetEngine s).script = s.script := rfl
@[simp] theorem resetEngine_answer (s : State) : (resetEngine s).answer = .silent := rfl

/-! ### Slots -/

@[simp] theorem readSlot_writeSlot (s : Slot) (v : Vector Byte 16) (e : Engine) : readSlot s (writeSlot s v e) = v := by
  cases s <;> rfl

/-- The slot a write does not name keeps its bytes (spec/10_state.md R23). -/
theorem readSlot_writeSlot_of_ne {s d : Slot} (h : s ≠ d) (v : Vector Byte 16) (e : Engine) :
    readSlot s (writeSlot d v e) = readSlot s e := by
  cases s <;> cases d <;> first | rfl | exact absurd rfl h

@[simp] theorem readSlot_setOk (s : Slot) (e : Engine) : readSlot s (setOk e) = readSlot s e := by cases s <;> rfl

@[simp] theorem readSlot_raiseRecoverable (s : Slot) (c : ErrCode) (e : Engine) :
    readSlot s (raiseRecoverable c e) = readSlot s e := by cases s <;> rfl

@[simp] theorem readSlot_raiseFatal (s : Slot) (c : FatalCause) (e : Engine) :
    readSlot s (raiseFatal c e) = readSlot s e := by cases s <;> rfl

/-- The fatal-state test is the test of `FCAUSE`. -/
theorem fatalFlag_eq_false {e : Engine} : fatalFlag e = false ↔ e.fcause = none := by
  simp [fatalFlag]

theorem fatalFlag_eq_true {e : Engine} : fatalFlag e = true ↔ e.fcause ≠ none := by
  cases h : e.fcause <;> simp [fatalFlag, h]

end Sys2Proof.Machine
end

