-- ==== Sys2Proof/Laws/Ops.lean ====
section
/-!
SUPPORT. Laws/Ops.lean: one lemma per shared operation that says everything it can do, for later proofs to cite instead of
unfolding it: commands, block loads and stores, and the step of the machine.
-/

namespace Sys2Proof.Machine

/-- The 16 bytes a block store leaves in its slot (spec/43_cipher_context.md R148). -/
theorem readSlot_storeBlock_toList (s : Slot) (y : Word × Word) (e : Engine) :
    (readSlot s (storeBlock s y e)).toList = bytes64 y.1 ++ bytes64 y.2 := by
  simp [storeBlock, padTo_toList]

/-- A block stored is the block loaded back (spec/43_cipher_context.md R147, R148). -/
@[simp] theorem loadBlock_storeBlock (s : Slot) (y : Word × Word) (e : Engine) : loadBlock s (storeBlock s y e) = y := by
  simp only [loadBlock, readSlot_storeBlock_toList]
  rw [slice_append_left _ _ 8 rfl, slice_append_right _ _ 8 8 rfl rfl, be64_bytes64, be64_bytes64]

/-- Storing a loaded block copies the slot's 16 bytes. -/
theorem readSlot_storeBlock_loadBlock (s d : Slot) (e e' : Engine) :
    (readSlot d (storeBlock d (loadBlock s e) e')) = readSlot s e := by
  apply Vector.toList_inj.mp
  rw [readSlot_storeBlock_toList]
  simp only [loadBlock]
  rw [bytes64_be64 (by simp [slice]), bytes64_be64 (by simp [slice])]
  simp only [slice, List.drop_zero]
  have h : (readSlot s e).toList.length = 16 := by simp
  rw [List.take_of_length_le (l := List.drop 8 _) (by simp), List.take_append_drop]

/-- A block store in one slot leaves the other as it was (spec/43_cipher_context.md R149). -/
theorem readSlot_storeBlock_of_ne {s d : Slot} (h : s ≠ d) (y : Word × Word) (e : Engine) :
    readSlot s (storeBlock d y e) = readSlot s e := readSlot_writeSlot_of_ne h _ e

/-- A block depends on its slot alone. -/
theorem loadBlock_congr {s : Slot} {e e' : Engine} (h : readSlot s e = readSlot s e') : loadBlock s e = loadBlock s e' := by
  simp [loadBlock, h]

/-! ### Commands -/

/-- A command in the fatal state is discarded (spec/60_exceptions.md R175). -/
theorem runCommand_fatal {body : Engine → EngineResult} {s : State} (h : s.fcause ≠ none) :
    runCommand body s = .next s := by
  simp [runCommand, fatalFlag_eq_true.mpr h]

/-- A command outside the fatal state is its body on the engine. -/
theorem runCommand_live {body : Engine → EngineResult} {s : State} (h : s.fcause = none) :
    runCommand body s = onEngine body s := by
  simp [runCommand, fatalFlag_eq_false.mpr h]

/-- A body that answers a next engine, as a command. -/
theorem runCommand_eq_next {body : Engine → EngineResult} {s : State} {e : Engine} (h : s.fcause = none)
    (hb : body s.toEngine = .next e) : runCommand body s = .next { s with toEngine := e } := by
  rw [runCommand_live h, onEngine, hb]

/-- Everything a command that answers a next state can have done. -/
theorem runCommand_cases {body : Engine → EngineResult} {s t : State} (h : runCommand body s = .next t) :
    (s.fcause ≠ none ∧ t = s) ∨
    (s.fcause = none ∧ ∃ e, body s.toEngine = .next e ∧ t = { s with toEngine := e }) := by
  by_cases hf : s.fcause = none
  · right
    rw [runCommand_live hf, onEngine] at h
    refine ⟨hf, ?_⟩
    split at h
    · rename_i e he; cases h; exact ⟨e, he, rfl⟩
    · cases h
    · cases h
  · left
    rw [runCommand_fatal hf] at h
    cases h
    exact ⟨hf, rfl⟩

/-- Everything `ENC` and `DEC` can do (spec/43_cipher_context.md R140, spec/60_exceptions.md R178). -/
theorem withContext_cases {dlen slen : Nat} {body : Engine → Engine} {e e' : Engine}
    (h : withContext dlen slen body e = .next e') :
    (e.nr = 0 ∧ e' = raiseFatal .noctx e) ∨
    (e.nr ≠ 0 ∧ bufferLengthsOk dlen slen = false ∧ e' = raiseFatal .buflen e) ∨
    (e.nr ≠ 0 ∧ bufferLengthsOk dlen slen = true ∧ e.nr.toNat ≤ 34 ∧ e' = body e) := by
  unfold withContext at h
  split at h
  · cases h; exact .inl ⟨‹_›, rfl⟩
  · split at h
    · cases h; exact .inr (.inl ⟨‹_›, ‹_›, rfl⟩)
    · split at h
      · cases h
      · cases h
        exact .inr (.inr ⟨‹_›, by simpa using ‹¬ bufferLengthsOk dlen slen = false›, by simpa [Config.roundKeyDepth] using ‹¬ Config.roundKeyDepth < _›, rfl⟩)

/-- The completing case of `ENC` and `DEC`. -/
theorem withContext_complete {dlen slen : Nat} {body : Engine → Engine} {e : Engine} (hn : e.nr ≠ 0)
    (hl : bufferLengthsOk dlen slen = true) (hd : e.nr.toNat ≤ 34) : withContext dlen slen body e = .next (body e) := by
  rw [withContext, if_neg hn, if_neg (by simp [hl]), if_neg (Nat.not_lt.mpr hd)]

/-- Everything `RNDF` and `RNDI` can do (spec/42_round_primitives.md R124, R127). -/
theorem withBuffers_cases {dlen slen : Nat} {body : Engine → Engine} {e e' : Engine}
    (h : withBuffers dlen slen body e = .next e') :
    (bufferLengthsOk dlen slen = false ∧ e' = raiseFatal .buflen e) ∨
    (bufferLengthsOk dlen slen = true ∧ e' = body e) := by
  unfold withBuffers at h
  split at h
  · cases h; exact .inl ⟨‹_›, rfl⟩
  · cases h; exact .inr ⟨by simpa using ‹¬ bufferLengthsOk dlen slen = false›, rfl⟩

/-- Everything `KEYX` can do (spec/41_key_schedule.md R100, R103). -/
theorem keyxBody_cases {klen : Nat} {e e' : Engine} (h : keyxBody klen e = .next e') :
    (keyLengthOk klen = false ∧ e' = raiseRecoverable .invalidKeyLength e) ∨
    (keyLengthOk klen = true ∧ e' = constructContext klen e) := by
  unfold keyxBody at h
  split at h
  · cases h; exact .inl ⟨‹_›, rfl⟩
  · cases h; exact .inr ⟨by simpa using ‹¬ keyLengthOk klen = false›, rfl⟩

/-- The declared lengths are right exactly when both are 16 (spec/60_exceptions.md R176). -/
theorem bufferLengthsOk_iff {dlen slen : Nat} : bufferLengthsOk dlen slen = true ↔ slen = 16 ∧ dlen = 16 := by
  simp [bufferLengthsOk]

/-- The key length is right exactly when it is 16, 24 or 32 (spec/41_key_schedule.md R103). -/
theorem keyLengthOk_iff {klen : Nat} : keyLengthOk klen = true ↔ klen = 16 ∨ klen = 24 ∨ klen = 32 := by
  simp [keyLengthOk, or_assoc]

/-! ### The end of a block command, field by field -/

@[simp] theorem completeBlock_key (d : Slot) (x : Word × Word) (r : BitVec 6) (e : Engine) :
    (completeBlock d x r e).key = e.key := by simp [completeBlock]
@[simp] theorem completeBlock_kop (d : Slot) (x : Word × Word) (r : BitVec 6) (e : Engine) :
    (completeBlock d x r e).kop = e.kop := by simp [completeBlock]
@[simp] theorem completeBlock_rk (d : Slot) (x : Word × Word) (r : BitVec 6) (e : Engine) :
    (completeBlock d x r e).rk = e.rk := by simp [completeBlock]
@[simp] theorem completeBlock_nr (d : Slot) (x : Word × Word) (r : BitVec 6) (e : Engine) :
    (completeBlock d x r e).nr = e.nr := by simp [completeBlock]
@[simp] theorem completeBlock_err (d : Slot) (x : Word × Word) (r : BitVec 6) (e : Engine) :
    (completeBlock d x r e).err = .ok := by simp [completeBlock]
@[simp] theorem completeBlock_fcause (d : Slot) (x : Word × Word) (r : BitVec 6) (e : Engine) :
    (completeBlock d x r e).fcause = e.fcause := by simp [completeBlock]
@[simp] theorem completeBlock_seq (d : Slot) (x : Word × Word) (r : BitVec 6) (e : Engine) :
    (completeBlock d x r e).seq = { e.seq with x1 := x.1, x2 := x.2, ridx := r, phase := .idle } := by
  simp [completeBlock]

/-- The destination slot of a completed block command. -/
theorem readSlot_completeBlock (d : Slot) (x : Word × Word) (r : BitVec 6) (e : Engine) :
    (readSlot d (completeBlock d x r e)).toList = bytes64 x.1 ++ bytes64 x.2 := by
  rw [completeBlock, readSlot_setOk, readSlot_storeBlock_toList]

/-- The slot a completed block command does not name as destination. -/
theorem readSlot_completeBlock_of_ne {s d : Slot} (h : s ≠ d) (x : Word × Word) (r : BitVec 6) (e : Engine) :
    readSlot s (completeBlock d x r e) = readSlot s e := by
  rw [completeBlock, readSlot_setOk, readSlot_storeBlock_of_ne h]
  cases s <;> rfl

/-- The destination slot of a completed block command, as an array. -/
theorem readSlot_completeBlock_eq (d : Slot) (x : Word × Word) (r : BitVec 6) (e : Engine) :
    readSlot d (completeBlock d x r e) = padTo 16 (bytes64 x.1 ++ bytes64 x.2) := by
  cases d <;> rfl

/-- Loading the destination slot of a completed block command gives the words it stored. -/
@[simp] theorem loadBlock_completeBlock (d : Slot) (x : Word × Word) (r : BitVec 6) (e : Engine) :
    loadBlock d (completeBlock d x r e) = x := by
  rw [← loadBlock_storeBlock d x { e with seq := { e.seq with x1 := x.1, x2 := x.2, ridx := r, phase := .idle } }]
  exact loadBlock_congr (by rw [completeBlock, readSlot_setOk, loadBlock_storeBlock])

/-- The bytes of a loaded block are the slot's bytes. -/
theorem padTo_loadBlock (s : Slot) (e : Engine) :
    padTo 16 (bytes64 (loadBlock s e).1 ++ bytes64 (loadBlock s e).2) = readSlot s e := by
  have h := readSlot_storeBlock_loadBlock s s e e
  rwa [storeBlock, readSlot_writeSlot] at h

/-- `ENC` with a context and both lengths 16 completes (spec/43_cipher_context.md R140). -/
theorem execEnc_complete {s : State} {ds ss : Slot} (hf : s.fcause = none) (hn : s.nr ≠ 0) (hd : s.nr.toNat ≤ 34) :
    execEnc ds 16 ss 16 s = .next { s with toEngine := encBody ds ss s.toEngine } :=
  runCommand_eq_next hf (withContext_complete hn rfl hd)

/-- `DEC` with a context and both lengths 16 completes (spec/43_cipher_context.md R144). -/
theorem execDec_complete {s : State} {ds ss : Slot} (hf : s.fcause = none) (hn : s.nr ≠ 0) (hd : s.nr.toNat ≤ 34) :
    execDec ds 16 ss 16 s = .next { s with toEngine := decBody ds ss s.toEngine } :=
  runCommand_eq_next hf (withContext_complete hn rfl hd)

/-- `RNDF` with both lengths 16 completes (spec/42_round_primitives.md R124). -/
theorem execRndf_complete {s : State} {ds ss : Slot} (hf : s.fcause = none) :
    execRndf ds 16 ss 16 s = .next { s with toEngine := rndfBody ds ss s.toEngine } :=
  runCommand_eq_next hf rfl

/-- `RNDI` with both lengths 16 completes (spec/42_round_primitives.md R127). -/
theorem execRndi_complete {s : State} {ds ss : Slot} (hf : s.fcause = none) :
    execRndi ds 16 ss 16 s = .next { s with toEngine := rndiBody ds ss s.toEngine } :=
  runCommand_eq_next hf rfl

/-- `KEYX` with an accepted length completes (spec/41_key_schedule.md R100). -/
theorem execKeyx_complete {s : State} {klen : Nat} (hf : s.fcause = none) (hk : keyLengthOk klen = true) :
    execKeyx klen s = .next { s with toEngine := constructContext klen s.toEngine } :=
  runCommand_eq_next hf (by rw [keyxBody, if_neg (by simp [hk])])

/-! ### A new context, field by field -/

@[simp] theorem constructContext_key (k : Nat) (e : Engine) : (constructContext k e).key = e.key := by simp only [constructContext, setOk_key]
@[simp] theorem constructContext_kop (k : Nat) (e : Engine) : (constructContext k e).kop = e.kop := by simp only [constructContext, setOk_kop]
@[simp] theorem constructContext_buf0 (k : Nat) (e : Engine) : (constructContext k e).buf0 = e.buf0 := by simp only [constructContext, setOk_buf0]
@[simp] theorem constructContext_buf1 (k : Nat) (e : Engine) : (constructContext k e).buf1 = e.buf1 := by simp only [constructContext, setOk_buf1]
@[simp] theorem constructContext_err (k : Nat) (e : Engine) : (constructContext k e).err = .ok := by simp only [constructContext, setOk_err]
@[simp] theorem constructContext_fcause (k : Nat) (e : Engine) : (constructContext k e).fcause = e.fcause := by simp only [constructContext, setOk_fcause]
@[simp] theorem constructContext_rk (k : Nat) (e : Engine) :
    (constructContext k e).rk = padTo 34 (keySchedule (keyBytes k e)) := by simp only [constructContext, setOk_rk, keySchedule]
@[simp] theorem constructContext_nr (k : Nat) (e : Engine) :
    (constructContext k e).nr = BitVec.ofNat 6 (roundCount k) := by simp only [constructContext, setOk_nr]
@[simp] theorem constructContext_phase (k : Nat) (e : Engine) : (constructContext k e).seq.phase = .idle := by simp only [constructContext, setOk_seq]

/-- A run of iterations adds one round key each. -/
theorem expandStep_foldl_length (m : Nat) (is : List Nat) (w : Expansion) :
    (is.foldl (expandStep m) w).rk.length = w.rk.length + is.length := by
  induction is generalizing w with
  | nil => rfl
  | cons i is ih => rw [List.foldl_cons, ih]; simp [expandStep]; omega

/-- The key schedule has one round key per round (spec/41_key_schedule.md R101, R106). -/
theorem keySchedule_length (key : List Byte) : (keySchedule key).length = roundCount key.length := by
  rw [keySchedule, expandKey, expandStep_foldl_length]
  simp [parseKey, roundCount]
  omega

/-- `KEY[0..klen-1]` has `klen` bytes. -/
theorem keyBytes_length {klen : Nat} (h : klen ≤ 32) (e : Engine) : (keyBytes klen e).length = klen := by
  simp [keyBytes, slice, h]

/-! ### Executing a command -/

/-- Everything `exec` can do when it answers a next state: discarded in the fatal state; the recoverable error; a fatal cause;
a new context; or a completed block command, with its words and round index (spec/60_exceptions.md R179). -/
theorem exec_cases {i : Instr} {s t : State} (h : exec i s = .next t) :
    (s.fcause ≠ none ∧ t = s) ∨
    (s.fcause = none ∧
      ((∃ klen, i = .keyx klen ∧ keyLengthOk klen = false ∧
          t = { s with toEngine := raiseRecoverable .invalidKeyLength s.toEngine }) ∨
       (∃ cause, t = { s with toEngine := raiseFatal cause s.toEngine }) ∨
       (∃ klen, i = .keyx klen ∧ keyLengthOk klen = true ∧
          t = { s with toEngine := constructContext klen s.toEngine }) ∨
       (∃ ds ss x ridx,
          ((i = .enc ds 16 ss 16 ∧ s.nr ≠ 0 ∧ s.nr.toNat ≤ 34 ∧
              x = encryptWords (contextKeys s.toEngine) (loadBlock ss s.toEngine) ∧ ridx = s.nr) ∨
           (i = .dec ds 16 ss 16 ∧ s.nr ≠ 0 ∧ s.nr.toNat ≤ 34 ∧
              x = decryptWords (contextKeys s.toEngine) (loadBlock ss s.toEngine) ∧ ridx = 0) ∨
           (i = .rndf ds 16 ss 16 ∧ x = roundForward (operandKey s.toEngine) (loadBlock ss s.toEngine) ∧ ridx = s.seq.ridx) ∨
           (i = .rndi ds 16 ss 16 ∧ x = roundInverse (operandKey s.toEngine) (loadBlock ss s.toEngine) ∧
              ridx = s.seq.ridx)) ∧
          t = { s with toEngine := completeBlock ds x ridx s.toEngine }))) := by
  cases i with
  | keyx klen =>
    rcases runCommand_cases h with hf | ⟨hf, e, he, rfl⟩
    · exact .inl hf
    · rcases keyxBody_cases he with ⟨hk, rfl⟩ | ⟨hk, rfl⟩
      · exact .inr ⟨hf, .inl ⟨klen, rfl, hk, rfl⟩⟩
      · exact .inr ⟨hf, .inr (.inr (.inl ⟨klen, rfl, hk, rfl⟩))⟩
  | enc ds dlen ss slen =>
    rcases runCommand_cases h with hf | ⟨hf, e, he, rfl⟩
    · exact .inl hf
    · rcases withContext_cases he with ⟨_, rfl⟩ | ⟨_, _, rfl⟩ | ⟨hn, hl, hr, rfl⟩
      · exact .inr ⟨hf, .inr (.inl ⟨_, rfl⟩)⟩
      · exact .inr ⟨hf, .inr (.inl ⟨_, rfl⟩)⟩
      · obtain ⟨rfl, rfl⟩ := bufferLengthsOk_iff.mp hl
        exact .inr ⟨hf, .inr (.inr (.inr ⟨ds, ss, _, _, .inl ⟨rfl, hn, hr, rfl, rfl⟩, rfl⟩))⟩
  | dec ds dlen ss slen =>
    rcases runCommand_cases h with hf | ⟨hf, e, he, rfl⟩
    · exact .inl hf
    · rcases withContext_cases he with ⟨_, rfl⟩ | ⟨_, _, rfl⟩ | ⟨hn, hl, hr, rfl⟩
      · exact .inr ⟨hf, .inr (.inl ⟨_, rfl⟩)⟩
      · exact .inr ⟨hf, .inr (.inl ⟨_, rfl⟩)⟩
      · obtain ⟨rfl, rfl⟩ := bufferLengthsOk_iff.mp hl
        exact .inr ⟨hf, .inr (.inr (.inr ⟨ds, ss, _, _, .inr (.inl ⟨rfl, hn, hr, rfl, rfl⟩), rfl⟩))⟩
  | rndf ds dlen ss slen =>
    rcases runCommand_cases h with hf | ⟨hf, e, he, rfl⟩
    · exact .inl hf
    · rcases withBuffers_cases he with ⟨_, rfl⟩ | ⟨hl, rfl⟩
      · exact .inr ⟨hf, .inr (.inl ⟨_, rfl⟩)⟩
      · obtain ⟨rfl, rfl⟩ := bufferLengthsOk_iff.mp hl
        exact .inr ⟨hf, .inr (.inr (.inr ⟨ds, ss, _, _, .inr (.inr (.inl ⟨rfl, rfl, rfl⟩)), rfl⟩))⟩
  | rndi ds dlen ss slen =>
    rcases runCommand_cases h with hf | ⟨hf, e, he, rfl⟩
    · exact .inl hf
    · rcases withBuffers_cases he with ⟨_, rfl⟩ | ⟨hl, rfl⟩
      · exact .inr ⟨hf, .inr (.inl ⟨_, rfl⟩)⟩
      · obtain ⟨rfl, rfl⟩ := bufferLengthsOk_iff.mp hl
        exact .inr ⟨hf, .inr (.inr (.inr ⟨ds, ss, _, _, .inr (.inr (.inr ⟨rfl, rfl, rfl⟩)), rfl⟩))⟩

/-! ### A step of the machine -/

/-- Everything a step that answers a next state can have done (spec/20_memory.md R55 to R57, spec/30_encoding.md R86,
spec/60_exceptions.md R178, spec/70_reset_and_hazards.md R200). -/
theorem step_cases {s t : State} (h : step s = .next t) :
    (s.script = [] ∧ t = s) ∨
    ∃ hs rest, s.script = hs :: rest ∧
      ((verdict s.toEngine hs = .refused ∧ t = { s with script := rest, answer := .errorResponse }) ∨
       (verdict s.toEngine hs = .discarded ∧ t = { s with script := rest, answer := .done }) ∨
       (hs = .reset ∧ t = { toEngine := Engine.reset, script := rest, answer := .silent }) ∨
       (∃ off n bs, hs = .memRead off n ∧ (admittedRow .read off n).isSome ∧ readBytes s.toEngine off n = some bs ∧
          t = { s with script := rest, answer := .data bs }) ∨
       (∃ off v row, hs = .memWrite off v ∧ admittedRow .write off v.length = some row ∧ s.fcause = none ∧
          ((row.region ≠ .cmd ∧
              t = { toEngine := writeRegion s.toEngine (off - row.first) v row.region, script := rest, answer := .done }) ∨
           (row.region = .cmd ∧ (∃ why, decode (be32 v) = .illegal why) ∧
              t = { toEngine := raiseFatal .illcmd s.toEngine, script := rest, answer := .done }) ∨
           (row.region = .cmd ∧ ∃ i, decode (be32 v) = .command i ∧
              exec i { s with script := rest, answer := .done } = .next t)))) := by
  unfold step takeHostStep at h
  split at h
  · cases h; exact .inl ⟨‹_›, rfl⟩
  rename_i hs rest hsc
  refine .inr ⟨hs, rest, hsc, ?_⟩
  unfold performHostStep at h
  split at h
  · cases h; exact .inl ⟨‹_›, rfl⟩
  · cases h; exact .inr (.inl ⟨‹_›, rfl⟩)
  rename_i hv
  split at h
  · cases h; exact .inr (.inr (.inl ⟨rfl, rfl⟩))
  · rename_i off n
    unfold performRead at h
    split at h
    · rename_i bs hbs
      cases h
      refine .inr (.inr (.inr (.inl ⟨off, n, bs, rfl, ?_, hbs, rfl⟩)))
      simp only [verdict] at hv
      split at hv
      · assumption
      · cases hv
    · cases h
  · rename_i off v
    refine .inr (.inr (.inr (.inr ?_)))
    have hf : s.fcause = none := by
      simp only [verdict] at hv
      split at hv
      · cases hv
      · split at hv
        · cases hv
        · rename_i hff; exact fatalFlag_eq_false.mp (by simpa using hff)
    unfold performWrite at h
    split at h
    · rename_i hn
      simp [verdict, hn] at hv
    · rename_i row hrow
      refine ⟨off, v, row, rfl, hrow, hf, ?_⟩
      split at h
      · rename_i hreg
        unfold dispatchWord at h
        split at h
        · rename_i hff; exact absurd hf (fatalFlag_eq_true.mp hff)
        · split at h
          · rename_i why hd; cases h; exact .inr (.inl ⟨hreg, ⟨why, hd⟩, rfl⟩)
          · rename_i i hd; exact .inr (.inr ⟨hreg, i, hd, h⟩)
      · rename_i hreg
        cases h
        exact .inl ⟨fun hc => hreg hc, rfl⟩

end Sys2Proof.Machine
end

