-- ==== Sys2Proof/Laws/PerInstr.lean ====
section
/-!
SUPPORT. Laws/PerInstr.lean: the statements made per instruction. Family `LowHalf`: the low half of the word of a command.
-/

namespace Sys2Proof.Laws

/-- The low half of the word of `i` holds an opcode of the map and leaves the reserved bits `Z` clear: no command, whatever its
declared lengths are, is spelled as an illegal word of the first two classes (spec/30_encoding.md R81, R87). -/
def LowHalf.Statement (i : Instr) : Prop :=
  1 ≤ fieldOPC (encode i) ∧ fieldOPC (encode i) ≤ 5 ∧ fieldZ (encode i) = 0

/-- A format B word with an opcode of the map. -/
theorem lowHalf_formatB {i : Instr} {opc : BitVec 8} {ds ss : Slot} {dlen slen : Nat}
    (he : encode i = encodeB (opc.setWidth 32) ds dlen ss slen) (h1 : 1 ≤ opc.toNat) (h5 : opc.toNat ≤ 5) :
    LowHalf.Statement i := by
  simp only [LowHalf.Statement, fieldOPC, fieldZ, he, encodeB_opc, encodeB_z]
  exact ⟨h1, h5, rfl⟩

theorem LowHalf.keyx (klen : Nat) : LowHalf.Statement (.keyx klen) := by
  have hopc : (encode (.keyx klen)).extractLsb' 0 8 = 0x01#8 := by
    rw [extract_eq_iff]; intro j hj
    simp [encode, show j < 16 by omega, show j < 32 by omega]
  have hz : (encode (.keyx klen)).extractLsb' 10 6 = 0#6 := by
    rw [extract_eq_iff]; intro j hj
    simp [encode, show 10 + j < 16 by omega, show 10 + j < 32 by omega]
  simp only [LowHalf.Statement, fieldOPC, fieldZ, hopc, hz]
  decide

theorem LowHalf.enc (ds : Slot) (dlen : Nat) (ss : Slot) (slen : Nat) : LowHalf.Statement (.enc ds dlen ss slen) :=
  lowHalf_formatB (opc := 0x02) rfl (by decide) (by decide)

theorem LowHalf.dec (ds : Slot) (dlen : Nat) (ss : Slot) (slen : Nat) : LowHalf.Statement (.dec ds dlen ss slen) :=
  lowHalf_formatB (opc := 0x03) rfl (by decide) (by decide)

theorem LowHalf.rndf (ds : Slot) (dlen : Nat) (ss : Slot) (slen : Nat) : LowHalf.Statement (.rndf ds dlen ss slen) :=
  lowHalf_formatB (opc := 0x04) rfl (by decide) (by decide)

theorem LowHalf.rndi (ds : Slot) (dlen : Nat) (ss : Slot) (slen : Nat) : LowHalf.Statement (.rndi ds dlen ss slen) :=
  lowHalf_formatB (opc := 0x05) rfl (by decide) (by decide)

end Sys2Proof.Laws
end

