-- ==== Sys2Proof/Laws/Window.lean ====
section
/-!
SUPPORT. Laws/Window.lean: one lemma per operation of the window: admission, the byte image, reads, and stores
(spec/20_memory.md R51 to R58).
-/

namespace Sys2Proof.Machine

/-- A row holds an access exactly when the access lies between its first and last offsets. -/
theorem MapRow.holds_iff {row : MapRow} {off n : Nat} :
    row.holds off n = true ↔ row.first ≤ off ∧ off + n ≤ row.first + row.size := by
  simp [MapRow.holds]

/-- Everything an admission says of an access (spec/20_memory.md R55). -/
theorem admittedRow_cases {right : Right} {off n : Nat} {row : MapRow} (h : admittedRow right off n = some row) :
    n ∈ Config.accessWidths ∧ off % n = 0 ∧ off + n ≤ Config.windowSize ∧ row ∈ windowMap ∧
      row.first ≤ off ∧ off + n ≤ row.first + row.size ∧ right ∈ row.rights ∧ n ∈ row.widths := by
  unfold admittedRow at h
  split at h
  · rename_i hc
    have hmem := List.mem_of_find?_eq_some h
    have hp := List.find?_some h
    simp only [Bool.and_eq_true, List.contains_iff_mem, MapRow.holds_iff] at hp
    exact ⟨hc.1, hc.2.1, hc.2.2, hmem, hp.1.1.1, hp.1.1.2, hp.1.2, hp.2⟩
  · cases h

/-- An admitted access has a width of at least one byte. -/
theorem admittedRow_width_pos {right : Right} {off n : Nat} {row : MapRow} (h : admittedRow right off n = some row) : 1 ≤ n := by
  have hn := (admittedRow_cases h).1
  simp only [Config.accessWidths, List.mem_cons, List.not_mem_nil, or_false] at hn
  omega

/-- The only admitted write to `CMD` is the 4-byte one at offset 0 (spec/20_memory.md R51). -/
theorem admittedRow_cmd {off n : Nat} {row : MapRow} (h : admittedRow .write off n = some row) (hr : row.region = .cmd) :
    off = 0x000 ∧ n = 4 := by
  obtain ⟨_, _, _, hm, h1, h2, _, h4⟩ := admittedRow_cases h
  simp only [windowMap, List.mem_cons, List.not_mem_nil, or_false] at hm
  rcases hm with rfl | rfl | rfl | rfl | rfl | rfl | rfl | rfl | rfl <;> simp_all

/-- No two regions of the map share an offset: the row that holds an offset is the one the image finds. -/
theorem find_row_of_holds {row : MapRow} (hmem : row ∈ windowMap) {off : Nat} (h1 : row.first ≤ off)
    (h2 : off < row.first + row.size) : windowMap.find? (fun r => r.holds off 1) = some row := by
  have key : ∀ r : MapRow, r.holds off 1 = decide (r.first ≤ off ∧ off + 1 ≤ r.first + r.size) := fun _ => rfl
  simp only [windowMap, List.mem_cons, List.not_mem_nil, or_false] at hmem
  rcases hmem with rfl | rfl | rfl | rfl | rfl | rfl | rfl | rfl | rfl <;>
    (simp only at h1 h2
     simp only [windowMap, List.find?_cons, key]
     repeat (first | rw [decide_eq_false (by omega)] | rw [decide_eq_true (by omega)]))

/-- The byte image inside a region (spec/20_memory.md R52). -/
theorem byteAt_of_row {row : MapRow} (hmem : row ∈ windowMap) (e : Engine) {off : Nat} (h1 : row.first ≤ off)
    (h2 : off < row.first + row.size) : byteAt e off = regionByte e (off - row.first) row.region := by
  rw [byteAt, find_row_of_holds hmem h1 h2]

/-- The byte image outside every region: a reserved offset has no byte (spec/20_memory.md R51). -/
theorem byteAt_of_reserved (e : Engine) {off : Nat} (h : ∀ row ∈ windowMap, ¬(row.first ≤ off ∧ off < row.first + row.size)) :
    byteAt e off = none := by
  rw [byteAt, List.find?_eq_none.mpr]
  intro row hrow
  have := h row hrow
  simp only [MapRow.holds_iff]
  omega

/-- Every offset is in a region or reserved. -/
theorem row_or_reserved (off : Nat) :
    (∃ row ∈ windowMap, row.first ≤ off ∧ off < row.first + row.size) ∨
    (∀ row ∈ windowMap, ¬(row.first ≤ off ∧ off < row.first + row.size)) := by
  by_cases h : ∃ row ∈ windowMap, row.first ≤ off ∧ off < row.first + row.size
  · exact .inl h
  · exact .inr fun row hrow hc => h ⟨row, hrow, hc⟩

/-- Two engines whose regions read alike at an offset have the same byte there. -/
theorem byteAt_congr {a b : Engine} {off : Nat}
    (h : ∀ row ∈ windowMap, row.first ≤ off → off < row.first + row.size →
      regionByte a (off - row.first) row.region = regionByte b (off - row.first) row.region) :
    byteAt a off = byteAt b off := by
  rcases row_or_reserved off with ⟨row, hmem, h1, h2⟩ | hr
  · rw [byteAt_of_row hmem a h1 h2, byteAt_of_row hmem b h1 h2, h row hmem h1 h2]
  · rw [byteAt_of_reserved a hr, byteAt_of_reserved b hr]

/-- What a read of `n` bytes delivers (spec/20_memory.md R55). -/
theorem readBytes_eq_some {e : Engine} {off n : Nat} {bs : List Byte} (h : readBytes e off n = some bs) :
    bs.length = n ∧ ∀ j, j < n → byteAt e (off + j) = bs[j]? := by
  induction n generalizing off bs with
  | zero => cases h; exact ⟨rfl, fun j hj => absurd hj (Nat.not_lt_zero j)⟩
  | succ n ih =>
    unfold readBytes at h
    split at h
    · rename_i b bs' hb hbs
      cases h
      obtain ⟨hl, hj⟩ := ih hbs
      refine ⟨by simp [hl], fun j hlt => ?_⟩
      cases j with
      | zero => simpa using hb
      | succ j =>
        have := hj j (by omega)
        rw [Nat.add_assoc, Nat.add_comm 1 j] at this
        simpa using this
    · cases h

/-- A read succeeds when every one of its offsets has a byte. -/
theorem readBytes_isSome {e : Engine} {off n : Nat} (h : ∀ j, j < n → (byteAt e (off + j)).isSome) :
    (readBytes e off n).isSome := by
  induction n generalizing off with
  | zero => rfl
  | succ n ih =>
    have h0 := h 0 (by omega)
    have hr := ih (off := off + 1) fun j hj => by
      have := h (j + 1) (by omega)
      rwa [show off + 1 + j = off + (j + 1) by omega]
    obtain ⟨b, hb⟩ := Option.isSome_iff_exists.mp h0
    obtain ⟨bs, hbs⟩ := Option.isSome_iff_exists.mp hr
    rw [Nat.add_zero] at hb
    simp [readBytes, hb, hbs]

/-- The bytes of an array after a store: the sequence's at its indices, the old ones elsewhere (spec/20_memory.md R56). -/
theorem storeSeq_getElem? {n : Nat} (v : Vector Byte n) (start : Nat) (bs : List Byte) (i : Nat) (hi : i < n) :
    (storeSeq v start bs)[i]? = if start ≤ i ∧ i < start + bs.length then bs[i - start]? else v[i]? := by
  induction bs generalizing v start with
  | nil => simp [storeSeq, show ¬(start ≤ i ∧ i < start) by omega]
  | cons b bs ih =>
    rw [storeSeq, ih]
    by_cases h1 : start = i
    · subst h1
      simp [hi]
    · by_cases h2 : start ≤ i ∧ i < start + (bs.length + 1)
      · obtain ⟨k, hk⟩ : ∃ k, i - start = k + 1 := ⟨i - start - 1, by omega⟩
        have h3 : start + 1 ≤ i ∧ i < start + 1 + bs.length := by omega
        simp [h2, h3, hk, show i - (start + 1) = k by omega]
      · have h3 : ¬(start + 1 ≤ i ∧ i < start + 1 + bs.length) := by omega
        have h4 : ¬(start ≤ i ∧ i < start + (bs.length + 1)) := h2
        simp only [List.length_cons, h3, h4, if_false]
        rw [Vector.getElem?_setIfInBounds_ne h1]

/-- A store of a sequence in two parts. -/
theorem storeSeq_append {n : Nat} (v : Vector Byte n) (start : Nat) (a b : List Byte) :
    storeSeq v start (a ++ b) = storeSeq (storeSeq v start a) (start + a.length) b := by
  induction a generalizing v start with
  | nil => rfl
  | cons x a ih =>
    rw [List.cons_append, storeSeq, ih, storeSeq, List.length_cons, Nat.add_assoc, Nat.add_comm 1]

/-! ### A data write, field by field -/

@[simp] theorem writeRegion_rk (e : Engine) (j : Nat) (bs : List Byte) (r : Region) : (writeRegion e j bs r).rk = e.rk := by
  cases r <;> simp [writeRegion]
@[simp] theorem writeRegion_nr (e : Engine) (j : Nat) (bs : List Byte) (r : Region) : (writeRegion e j bs r).nr = e.nr := by
  cases r <;> simp [writeRegion]
@[simp] theorem writeRegion_err (e : Engine) (j : Nat) (bs : List Byte) (r : Region) : (writeRegion e j bs r).err = e.err := by
  cases r <;> simp [writeRegion]
@[simp] theorem writeRegion_fcause (e : Engine) (j : Nat) (bs : List Byte) (r : Region) :
    (writeRegion e j bs r).fcause = e.fcause := by
  cases r <;> simp [writeRegion]
@[simp] theorem writeRegion_seq (e : Engine) (j : Nat) (bs : List Byte) (r : Region) : (writeRegion e j bs r).seq = e.seq := by
  cases r <;> simp [writeRegion]

end Sys2Proof.Machine
end

