-- ==== Sys2Proof/Laws/Script.lean ====
section
/-!
SUPPORT. Laws/Script.lean: what the host script notation spells and what performing a script does (spec/30_encoding.md R90).
-/

namespace Sys2Proof.Machine

/-- Everything the choice of a script's row says: the region, the right, and whole accesses inside the region. -/
theorem scriptRow_cases {right : Right} {r : Region} {off n : Nat} {row : MapRow} (h : scriptRow right r off n = some row) :
    row ∈ windowMap ∧ row.region = r ∧ right ∈ row.rights ∧ off + n ≤ row.size ∧ off % row.scriptWidth = 0 ∧
      n % row.scriptWidth = 0 := by
  have hp := List.find?_some h
  simp only [Bool.and_eq_true, beq_iff_eq, List.contains_iff_mem, decide_eq_true_eq] at hp
  obtain ⟨⟨⟨⟨h1, h2⟩, h3⟩, h4⟩, h5⟩ := hp
  exact ⟨List.mem_of_find?_eq_some h, h1, h2, h3, h4, h5⟩

/-- A region has one row, so a row that fits is the row a script chooses. -/
theorem scriptRow_eq_some {right : Right} {off n : Nat} {row : MapRow} (hm : row ∈ windowMap) (hr : right ∈ row.rights)
    (hs : off + n ≤ row.size) (ho : off % row.scriptWidth = 0) (hn : n % row.scriptWidth = 0) :
    scriptRow right row.region off n = some row := by
  simp only [windowMap, List.mem_cons, List.not_mem_nil, or_false] at hm
  rcases hm with rfl | rfl | rfl | rfl | rfl | rfl | rfl | rfl | rfl <;>
    simp_all [scriptRow, windowMap, MapRow.scriptWidth]

/-- Each access of a script in a row that has the right is admitted (spec/20_memory.md R55, R56). -/
theorem script_access_admitted {right : Right} {row : MapRow} (hm : row ∈ windowMap) (hr : right ∈ row.rights) {off : Nat}
    (ho : off % row.scriptWidth = 0) (hs : off + row.scriptWidth ≤ row.size) :
    admittedRow right (row.first + off) row.scriptWidth = some row := by
  have hfirst : row.first % row.scriptWidth = 0 ∧ row.first + row.size ≤ Config.windowSize ∧
      row.scriptWidth ∈ row.widths ∧ row.scriptWidth ∈ Config.accessWidths := by
    simp only [windowMap, List.mem_cons, List.not_mem_nil, or_false] at hm
    rcases hm with rfl | rfl | rfl | rfl | rfl | rfl | rfl | rfl | rfl <;> decide
  have hpos : 1 ≤ row.scriptWidth := by unfold MapRow.scriptWidth; split <;> decide
  have hal : (row.first + off) % row.scriptWidth = 0 := by rw [Nat.add_mod, hfirst.1, ho]; simp
  rw [admittedRow, if_pos ⟨hfirst.2.2.2, hal, by omega⟩]
  have hrow : (row.holds (row.first + off) row.scriptWidth && row.rights.contains right && row.widths.contains row.scriptWidth) =
      true := by
    simp only [Bool.and_eq_true, MapRow.holds_iff, List.contains_iff_mem]
    exact ⟨⟨by omega, hr⟩, hfirst.2.2.1⟩
  cases hf : windowMap.find? fun r =>
      r.holds (row.first + off) row.scriptWidth && r.rights.contains right && r.widths.contains row.scriptWidth with
  | none => exact absurd hrow (List.find?_eq_none.mp hf row hm)
  | some r =>
    have hp := List.find?_some hf
    simp only [Bool.and_eq_true, MapRow.holds_iff] at hp
    have e1 := find_row_of_holds (List.mem_of_find?_eq_some hf) hp.1.1.1 (by omega)
    have e2 := find_row_of_holds (off := row.first + off) hm (by omega) (by omega)
    rw [e1] at e2
    exact e2

@[simp] theorem performScript_nil (s : State) : performScript [] s = some ([], s) := rfl

/-- Performing a script step by step. -/
theorem performScript_cons {h : HostStep} {hs : List HostStep} {s t u : State} {bs rest : List Byte}
    (h1 : step { s with script := h :: s.script } = .next t) (h2 : t.answer.bytes = some bs)
    (h3 : performScript hs t = some (rest, u)) : performScript (h :: hs) s = some (bs ++ rest, u) := by
  simp [performScript, h1, h2, h3]

end Sys2Proof.Machine
end

