-- ==== Sys2Proof/Tests/Slice0.lean ====
section
/-!
SUPPORT. Tests/Slice0.lean: the model's own tests. Part 1: encodings and the well-formedness smoke test. Part 2: one step of each
command, the port and the reset on small states; every expected value is the spec's (the place is named). Part 3: for every
obligation with hypotheses, a named witness that meets them.
-/

namespace Sys2Proof.Tests

open Sys2Proof Sys2Proof.Machine

/-! ### Helpers -/

/-- The next state of an outcome. -/
def ended : Host.Outcome State Fault Refusal → Option State
  | .next t => some t
  | .fault _ => none
  | .refused _ => none

theorem eq_next_of_ended {o : Host.Outcome State Fault Refusal} {t : State} (h : ended o = some t) : o = .next t := by
  cases o with
  | next u => rw [Option.some.inj h]
  | fault r => cases h
  | refused r => cases h

/-- The next state of an outcome, `s` where there is none. -/
def nextOr (s : State) (o : Host.Outcome State Fault Refusal) : State := (ended o).getD s

/-- The key of the source's vector of `n` bytes, `n - 1` down to 0 (spec/95_test_vectors.md section 1.1), `0xEE` above it. -/
def vectorKey (n : Nat) : Vector Byte 32 := Vector.ofFn fun i => if i.val < n then BitVec.ofNat 8 (n - 1 - i) else 0xEE

/-- A block from its two words. -/
def block (x1 x2 : Word) : Vector Byte 16 := padTo 16 (bytes64 x1 ++ bytes64 x2)

/-- The plaintext of V1.1 (spec/95_test_vectors.md section 1.1). -/
def plain128 : Vector Byte 16 := block 0x6c61766975716520 0x7469206564616d20

/-- The ciphertext of V1.1 (spec/95_test_vectors.md section 1.1). -/
def cipher128 : Vector Byte 16 := block 0xa65d985179783265 0x7860fedf5c570d18

/-- A machine with the key of `klen` bytes staged, the plaintext of V1.1 in `BUF[0]`, the key of its round 0 in `KOP`, values in
the hidden registers, and no context. -/
def staged (klen : Nat) : State :=
  { State.reset with
    key := vectorKey klen
    kop := padTo 8 (bytes64 0x0706050403020100)
    buf0 := plain128
    seq := { ridx := 7, x1 := 1, x2 := 2, l := Vector.replicate 3 3, m := 2, phase := .idle } }

/-- `staged` after its `KEYX`: the context of `klen`. -/
def keyed (klen : Nat) : State := nextOr State.reset (exec (.keyx klen) (staged klen))

/-- A machine whose `NR` is set by hand, the round-key file all zero. -/
def withCount (nr : BitVec 6) : State := { staged 16 with nr := nr }

/-- `keyed 16` in the fatal state. -/
def aborted : State := { keyed 16 with fcause := some .noctx }

/-- A machine with host steps waiting. -/
def scripted (s : State) (script : List HostStep) : State := { s with script := script }

/-! ### Part 1: encodings -/

/-- The well-formedness smoke test: each check refuses a length that does not fit its field, each command accepts 0 and 255
(spec/30_encoding.md R81, R84). -/
theorem test_wf :
    (Instr.keyx 256).wf = false ∧
    (Instr.enc .b0 256 .b0 16).wf = false ∧ (Instr.enc .b0 16 .b0 256).wf = false ∧
    (Instr.dec .b0 256 .b0 16).wf = false ∧ (Instr.dec .b0 16 .b0 256).wf = false ∧
    (Instr.rndf .b0 256 .b0 16).wf = false ∧ (Instr.rndf .b0 16 .b0 256).wf = false ∧
    (Instr.rndi .b0 256 .b0 16).wf = false ∧ (Instr.rndi .b0 16 .b0 256).wf = false ∧
    (Instr.keyx 0).wf = true ∧ (Instr.keyx 255).wf = true ∧ (Instr.enc .b1 255 .b0 0).wf = true ∧
    (Instr.dec .b0 0 .b1 255).wf = true ∧ (Instr.rndf .b1 255 .b1 255).wf = true ∧ (Instr.rndi .b0 0 .b0 0).wf = true := by
  decide

/-- KEYX by its pattern `00000000 kkkkkkkk 00000000 00000001` with `k` = 24 (spec/30_encoding.md R85). -/
theorem test_decode_keyx : decode 0b00000000000110000000000000000001 = .command (.keyx 24) := by decide

/-- ENC by its pattern `dddddddd ssssssss 000000yx 00000010` with `d` = 129, `s` = 16, `y` = 1, `x` = 0 (spec/30_encoding.md
R85). -/
theorem test_decode_enc : decode 0b10000001000100000000001000000010 = .command (.enc .b1 129 .b0 16) := by decide

/-- DEC by its pattern `dddddddd ssssssss 000000yx 00000011` with `d` = 16, `s` = 15, `y` = 0, `x` = 1 (spec/30_encoding.md
R85). -/
theorem test_decode_dec : decode 0b00010000000011110000000100000011 = .command (.dec .b0 16 .b1 15) := by decide

/-- RNDF by its pattern `dddddddd ssssssss 000000yx 00000100` with `d` = 16, `s` = 16, `y` = 1, `x` = 1 (spec/30_encoding.md
R85). -/
theorem test_decode_rndf : decode 0b00010000000100000000001100000100 = .command (.rndf .b1 16 .b1 16) := by decide

/-- RNDI by its pattern `dddddddd ssssssss 000000yx 00000101` with `d` = 255, `s` = 0, `y` = 0, `x` = 0 (spec/30_encoding.md
R85). -/
theorem test_decode_rndi : decode 0b11111111000000000000000000000101 = .command (.rndi .b0 255 .b0 0) := by decide

/-- One word of each illegal class, at the classes' edges (spec/30_encoding.md R87, R91). -/
theorem test_decode_illegal :
    decode 0x00000000 = .illegal .opcode ∧ decode 0x00100006 = .illegal .opcode ∧ decode 0x101000FF = .illegal .opcode ∧
    decode 0x10100402 = .illegal .reservedBits ∧ decode 0x10108005 = .illegal .reservedBits ∧
    decode 0x00100401 = .illegal .reservedBits ∧ decode 0x00100101 = .illegal .formatKBits ∧
    decode 0x00100201 = .illegal .formatKBits ∧ decode 0x01100001 = .illegal .formatKBits ∧
    decode 0x80100001 = .illegal .formatKBits := by decide

/-- Table words: bits above the row's width are zero, and the opcode table's `match` words decode to their rows' commands
(spec/opcode_table.json). -/
theorem test_decodeTableWord :
    decodeTableWord 32 0x00000001 = some (.keyx 0) ∧ decodeTableWord 32 0x00000002 = some (.enc .b0 0 .b0 0) ∧
    decodeTableWord 32 0x00000003 = some (.dec .b0 0 .b0 0) ∧ decodeTableWord 32 0x00000004 = some (.rndf .b0 0 .b0 0) ∧
    decodeTableWord 32 0x00000005 = some (.rndi .b0 0 .b0 0) ∧ decodeTableWord 16 0xFFFF0001 = some (.keyx 0) ∧
    decodeTableWord 32 0x00000006 = none := by decide

/-- The pseudo-forms spell the words of spec/30_encoding.md R89, R91. -/
theorem test_pseudo_forms :
    encode keyx128 = 0x00100001 ∧ encode keyx192 = 0x00180001 ∧ encode keyx256 = 0x00200001 ∧
    encode (encBlock .b1 .b0) = 0x10100202 ∧ encode (decBlock .b0 .b1) = 0x10100103 ∧
    encode (rndfBlock .b1 .b0) = 0x10100204 ∧ encode (rndiBlock .b0 .b1) = 0x10100105 := by decide

/-! ### Part 2: single steps -/

/-- KEYX 16 on the key of V1.1 (spec/41_key_schedule.md R100, worked example). -/
theorem test_keyx_128 :
    (keyed 16).nr = 32 ∧ (keyed 16).rk[0] = 0x0706050403020100 ∧ (keyed 16).rk[1] = 0x37253b31171d0309 ∧
    (keyed 16).rk[31] = 0x2199c870db8ec93f ∧ (keyed 16).rk[32] = 0 ∧ (keyed 16).rk[33] = 0 ∧
    statusWord (keyed 16).toEngine = 0x00200001 := by decide +kernel

/-- KEYX 32 on the key of V1.3: the last round key of spec/95_test_vectors.md section 2.3; and KEYX 24, section 2.2. -/
theorem test_keyx_256_192 :
    (keyed 32).nr = 34 ∧ (keyed 32).rk[2] = 0xfe1588ce93d80d52 ∧ (keyed 32).rk[3] = 0xe698e09f31334dfe ∧
    (keyed 32).rk[33] = 0xf4d26f589a56b276 ∧
    (keyed 24).nr = 33 ∧ (keyed 24).rk[3] = 0xf788db953a2770c8 ∧ (keyed 24).rk[32] = 0x372dd2b830c61709 ∧
    (keyed 24).rk[33] = 0 := by decide +kernel

/-- ENC b1, b0 under the context of V1.1 (spec/95_test_vectors.md section 1.1). -/
theorem test_enc_128 : readSlot .b1 (nextOr State.reset (exec (.enc .b1 16 .b0 16) (keyed 16))).toEngine = cipher128 := by
  decide +kernel

/-- ENC b0, b0 under the context of V1.3, in place (spec/95_test_vectors.md section 1.1). -/
theorem test_enc_256 :
    readSlot .b0 (nextOr State.reset (exec (.enc .b0 16 .b0 16)
      { keyed 32 with buf0 := block 0x65736f6874206e49 0x202e72656e6f6f70 })).toEngine =
      block 0x4109010405c0f53e 0x4eeeb48d9c188f43 := by
  decide +kernel

/-- DEC b0, b1 under the context of V1.1 (spec/43_cipher_context.md R144, worked example). -/
theorem test_dec_128 :
    readSlot .b0 (nextOr State.reset (exec (.dec .b0 16 .b1 16)
      { keyed 16 with buf0 := block 0 0, buf1 := cipher128 })).toEngine = plain128 := by
  decide +kernel

/-- DEC b1, b1 under the context of V1.2 (spec/95_test_vectors.md section 1.1). -/
theorem test_dec_192 :
    readSlot .b1 (nextOr State.reset (exec (.dec .b1 16 .b1 16)
      { keyed 24 with buf1 := block 0x1be4cf3a13135566 0xf9bc185de03c1886 })).toEngine =
      block 0x7261482066656968 0x43206f7420746e65 := by
  decide +kernel

/-- RNDF b1, b0 (spec/42_round_primitives.md R124, worked example). -/
theorem test_rndf :
    readSlot .b1 (nextOr State.reset (exec (.rndf .b1 16 .b0 16) (staged 16))).toEngine =
      block 0x93d384dfced4df85 0x309a87f4eddfb686 := by
  decide +kernel

/-- RNDI b0, b1 (spec/42_round_primitives.md R127, worked example). -/
theorem test_rndi :
    readSlot .b0 (nextOr State.reset (exec (.rndi .b0 16 .b1 16)
      { staged 16 with buf0 := block 0 0, buf1 := block 0x93d384dfced4df85 0x309a87f4eddfb686 })).toEngine = plain128 := by
  decide +kernel

/-- The rounds at the edges of the arithmetic: a carry out of bit 63 is dropped, and a borrow into it wraps (rows of
spec/42_round_primitives.md R128, R129). -/
theorem test_rounds_wrap :
    roundForward 0 (0x0000000000008000, 0xffffffffffffff80) = (0x0000000000000000, 0xfffffffffffffc07) ∧
    roundForward 5 (0x8000000000000000, 0x8000000000000000) = (0x8080000000000005, 0x8080000000000001) ∧
    roundInverse 0 (0x0000000000000000, 0x0000000000000001) = (0x00000000000000e0, 0x2000000000000000) ∧
    roundInverse 0x0123456789abcdef (0, 0) = (0x23456789abcdef01, 0) := by decide

/-- The failures, in the order of their tests: `NOCTX` before `BUFLEN`, RNDF without a context (spec/43_cipher_context.md R153
items 1 and 2, spec/42_round_primitives.md R124). -/
theorem test_failures :
    (nextOr State.reset (exec (.enc .b0 15 .b0 16) (staged 16))).fcause = some .noctx ∧
    (nextOr State.reset (exec (.dec .b0 15 .b0 15) (withCount 33))).fcause = some .buflen ∧
    (nextOr State.reset (exec (.enc .b0 16 .b0 17) (withCount 32))).fcause = some .buflen ∧
    (nextOr State.reset (exec (.rndf .b0 17 .b0 16) (staged 16))).fcause = some .buflen ∧
    (nextOr State.reset (exec (.rndf .b0 16 .b0 16) (staged 16))).fcause = none ∧
    (nextOr State.reset (exec (.keyx 4) (staged 16))).err = .invalidKeyLength := by decide

/-- `STATUS` after `KEYX 4` from reset, after `ENC` from reset, and after a failed `KEYX` with a context (spec/10_state.md R30,
spec/41_key_schedule.md R109). -/
theorem test_status :
    statusWord (nextOr State.reset (exec (.keyx 4) State.reset)).toEngine = 0x00000010 ∧
    statusWord (nextOr State.reset (exec (.enc .b0 16 .b0 16) State.reset)).toEngine = 0x00000202 ∧
    statusWord (nextOr State.reset (exec (.keyx 4) (withCount 32))).toEngine = 0x00200011 := by decide

/-- The codes of the other two fatal causes in `STATUS`: `ILLCMD` 1 and `BUFLEN` 3 (spec/96_test_vectors_derived.md V3.5.13, V3.5.17). -/
theorem test_status_fatal_codes :
    statusWord (nextOr State.reset (step (State.reset.withFetchWord 32 0x00000000))).toEngine = 0x00000102 ∧
    statusWord (nextOr State.reset (exec (.rndf .b0 16 .b0 15) State.reset)).toEngine = 0x00000302 := by decide

/-- A 4-byte read of `STATUS`, most significant byte first; of `BLKSZ`; and of eight bytes of `ALGNAME`, "/128" and four zeros
(spec/10_state.md R30 to R32, spec/20_memory.md R53). -/
theorem test_reads :
    (nextOr State.reset (step (scripted (withCount 32) [readStatus]))).answer = .data [0x00, 0x20, 0x00, 0x01] ∧
    (nextOr State.reset (step (scripted State.reset [.memRead 0x008 4]))).answer = .data [0x00, 0x00, 0x00, 0x10] ∧
    (nextOr State.reset (step (scripted (withCount 32) [.memRead 0x018 8]))).answer =
      .data [0x2f, 0x31, 0x32, 0x38, 0x00, 0x00, 0x00, 0x00] := by decide

/-- The bytes of `RK[0]` of the 128-bit vector, and the last byte of `RK[33]` (spec/20_memory.md R52). -/
theorem test_read_rk :
    (nextOr State.reset (step (scripted (keyed 16) [.memRead 0x100 8]))).answer =
      .data [0x07, 0x06, 0x05, 0x04, 0x03, 0x02, 0x01, 0x00] ∧
    (nextOr State.reset (step (scripted (keyed 32) [.memRead 0x20F 1]))).answer = .data [0x76] := by decide +kernel

/-- Refused: a read of `CMD`, a reserved offset, a write of `STATUS` and of `RK`, a 2-byte access to `CMD`, a misaligned access, a
width of 3, an access past the end of the window (spec/20_memory.md R57). -/
theorem test_refused :
    verdict State.reset.toEngine (.memRead 0x000 4) = .refused ∧ verdict State.reset.toEngine (.memRead 0x00C 4) = .refused ∧
    verdict State.reset.toEngine (.memWrite 0x004 [0, 0, 0, 0]) = .refused ∧
    verdict State.reset.toEngine (.memWrite 0x100 [0]) = .refused ∧
    verdict State.reset.toEngine (.memWrite 0x000 [0, 1]) = .refused ∧
    verdict State.reset.toEngine (.memRead 0x021 2) = .refused ∧ verdict State.reset.toEngine (.memRead 0x040 3) = .refused ∧
    verdict State.reset.toEngine (.memRead 0x3FF 1) = .refused ∧ verdict State.reset.toEngine (.memRead 0x400 8) = .refused ∧
    verdict State.reset.toEngine (.memRead 0x210 1) = .refused := by decide

/-- A data write: the first byte at the lowest offset, the neighbours untouched (spec/20_memory.md R54, R56); and the same write
discarded in the fatal state (spec/60_exceptions.md R175). -/
theorem test_data_write :
    ((nextOr State.reset (step (scripted State.reset [.memWrite 0x042 [0xAA, 0xBB]]))).key.toList.take 5 =
      [0x00, 0x00, 0xAA, 0xBB, 0x00]) ∧
    (nextOr State.reset (step (scripted aborted [.memWrite 0x042 [0xAA, 0xBB]]))).key = aborted.key := by decide +kernel

/-- A placed word is the next command run: `KEYX 4` from reset sets `ERR` alone (spec/41_key_schedule.md R103); an illegal word is
fatal (spec/30_encoding.md R86). -/
theorem test_withFetchWord :
    (nextOr State.reset (step (State.reset.withFetchWord 32 0x00040001))).err = .invalidKeyLength ∧
    (nextOr State.reset (step (State.reset.withFetchWord 32 0x00000006))).fcause = some .illcmd := by decide

/-- `Reset` clears the fatal state, the context and the key (spec/70_reset_and_hazards.md R200). -/
theorem test_reset : (nextOr aborted (step (scripted aborted [.reset]))).toEngine = Engine.reset := by decide +kernel

/-- The script notation: 1-byte accesses where the region has them, one 4-byte read of `BLKSZ` and of `STATUS`, no script where no
admitted accesses move exactly those bytes (spec/30_encoding.md R90, spec/20_memory.md R51). -/
theorem test_script_accesses :
    writeScript (.buf .b1) 4 [0xAB, 0xCD] = some [.memWrite 0x074 [0xAB], .memWrite 0x075 [0xCD]] ∧
    readScript .kop 2 = some [.memRead 0x020 1, .memRead 0x021 1] ∧ readScript .blksz 4 = some [.memRead 0x008 4] ∧
    readScript .status 4 = some [readStatus] ∧ writeScript .cmd 0 [0x00, 0x10, 0x00, 0x01] = some [issue keyx128] ∧
    readScript .blksz 2 = none ∧ readScript .kop 9 = none ∧ readScript .cmd 4 = none ∧ writeScript .rk 0 [0] = none := by decide

/-- What scripts return: `RD BLKSZ, 4 -> 00000010` and `RD ALGNAME, 16` of V1.1, `RD STATUS` as an integer; a refused access
returns nothing (spec/95_test_vectors.md section 1.1, spec/20_memory.md R57). -/
theorem test_script_results :
    ((readScript .blksz 4).bind fun steps => (performScript steps aborted).map (·.1)) = some [0x00, 0x00, 0x00, 0x10] ∧
    ((readScript .algName 16).bind fun steps => (performScript steps (withCount 32)).map (·.1)) =
      some [0x53, 0x70, 0x65, 0x63, 0x6b, 0x31, 0x32, 0x38, 0x2f, 0x31, 0x32, 0x38, 0x00, 0x00, 0x00, 0x00] ∧
    shownStatus (withCount 32) = some 0x00200001 ∧ performScript [.memRead 0x008 1] State.reset = none ∧
    ((performScript [resetStep, readStatus] aborted).map (·.1)) = some [0x00, 0x00, 0x00, 0x00] := by decide +kernel

/-- With no host step waiting the machine stays as it is (log entry 4; nothing but the host changes the engine,
spec/60_exceptions.md R187). -/
theorem test_no_host_step : ended (step State.reset) = some State.reset := by decide

/-! ### Part 3: witnesses: for every obligation with hypotheses, values that meet them, clause by clause -/

theorem test_witness_WordsAreBigEndian :
    7 < 8 ∧ (bytes64 0x0706050403020100)[7]? = some 0x00 ∧ (bytes64 0x0706050403020100)[0]? = some 0x07 ∧
    ([0xFF, 0, 0, 0, 0, 0, 0, 1] : List Byte).length = 8 ∧ be64 [0xFF, 0, 0, 0, 0, 0, 0, 1] = 0xFF00000000000001 ∧
    3 < 4 ∧ (bytes32 0x10100202)[3]? = some 0x02 ∧
    ([0x10, 0x10, 0x02, 0x02] : List Byte).length = 4 ∧ be32 [0x10, 0x10, 0x02, 0x02] = 0x10100202 := by decide

theorem test_witness_WordArithmeticWraps :
    add64 0xFFFFFFFFFFFFFFFF 1 = 0 ∧ sub64 0 1 = 0xFFFFFFFFFFFFFFFF ∧
    (0 < 8 ∧ 8 < 64 ∧ 63 < 64 ∧ ror64 0x1 8 = 0x0100000000000000) ∧
    (0 < 3 ∧ 3 < 64 ∧ rol64 0x8000000000000000 3 = 0x4) ∧ (0 < 63 ∧ 63 < 64 ∧ ror64 0x8000000000000000 63 = 0x1) := by decide

theorem test_witness_EncodeThenDecode :
    (Instr.keyx 255).wf = true ∧ (Instr.enc .b1 255 .b1 0).wf = true ∧ (Instr.dec .b0 0 .b1 255).wf = true ∧
    (Instr.rndf .b1 16 .b0 16).wf = true ∧ (Instr.rndi .b0 255 .b0 255).wf = true := by decide

theorem test_witness_DecodeDeterminesWord :
    decode 0x00FF0001 = .command (.keyx 255) ∧ decode 0xFFFF0302 = .command (.enc .b1 255 .b1 255) := by decide

theorem test_witness_AtMostOneRowMatches :
    ⟨.keyx, 0xFF00FFFF, 0x00000001⟩ ∈ opcodeMap ∧
    OpcodeRow.selects ⟨.keyx, 0xFF00FFFF, 0x00000001⟩ 0x00200001 = true ∧
    ⟨.rndi, 0x0000FCFF, 0x00000005⟩ ∈ opcodeMap ∧
    OpcodeRow.selects ⟨.rndi, 0x0000FCFF, 0x00000005⟩ 0xFFFF0305 = true := by decide

/-- A waiting write of the word `w` to `CMD`. -/
def cmdWrite (w : Word32) : HostStep := .memWrite 0x000 (bytes32 w)

theorem test_witness_IllegalWordsExactly :
    (scripted State.reset [cmdWrite 0x00000000]).script = [.memWrite 0x000 [0, 0, 0, 0]] ∧
    ([0, 0, 0, 0] : List Byte).length = 4 ∧ (scripted State.reset [cmdWrite 0x00000000]).fcause = none ∧
    decode (be32 [0, 0, 0, 0]) = .illegal .opcode ∧ decode (be32 [0x10, 0x10, 0x04, 0x02]) = .illegal .reservedBits ∧
    decode (be32 [0x01, 0x10, 0x00, 0x01]) = .illegal .formatKBits := by decide

theorem test_witness_StepRunsTheDecodedCommand :
    (scripted aborted [cmdWrite 0x10100002]).fcause ≠ none ∧
    ((scripted (staged 16) [cmdWrite 0x10100002]).fcause = none ∧
      decodeBytes [0x10, 0x10, 0x00, 0x02] = .command (.enc .b0 16 .b0 16)) ∧
    ((scripted (staged 16) [cmdWrite 0x101000FF]).fcause = none ∧
      decodeBytes [0x10, 0x10, 0x00, 0xFF] = .illegal .opcode) := by decide

theorem test_witness_PlacedWordRunsNext :
    State.reset.fcause = none ∧ decodeTableWord 32 0x00200001 = some (.keyx 32) ∧
    decodeTableWord 8 0x00000005 = some (.rndi .b0 0 .b0 0) := by decide

theorem test_witness_KeyWordsInTheirOrder :
    ((vectorKey 16).toList.take 16).length = 16 ∧ ((vectorKey 24).toList.take 24).length = 24 ∧
    (vectorKey 32).toList.length = 32 ∧ (parseKey (vectorKey 32).toList).l[2]? = some 0x1f1e1d1c1b1a1918 := by decide

theorem test_witness_KeyxBadLengthSetsErrOnly :
    (staged 16).fcause = none ∧ ∀ klen ∈ [0, 4, 15, 17, 23, 25, 31, 33, 255], klen ≠ 16 ∧ klen ≠ 24 ∧ klen ≠ 32 := by decide

theorem test_witness_KeyxConstructsTheContext :
    (staged 16).fcause = none ∧ ∀ klen ∈ [16, 24, 32], klen = 16 ∨ klen = 24 ∨ klen = 32 := by decide

/-- `ENC` without a context; with one and a wrong length; with one of 32 and of 34 rounds. -/
theorem test_witness_EncEncryptsTheBlock :
    ((staged 16).fcause = none ∧ (staged 16).nr = 0) ∧
    ((withCount 33).fcause = none ∧ (withCount 33).nr ≠ 0 ∧ ¬(15 = 16 ∧ 16 = 16) ∧ ¬(16 = 16 ∧ 17 = 16)) ∧
    ((withCount 32).nr ≠ 0 ∧ (withCount 32).nr.toNat ≤ 34) ∧
    ((withCount 34).fcause = none ∧ (withCount 34).nr ≠ 0 ∧ (withCount 34).nr.toNat ≤ 34) := by decide

theorem test_witness_DecDecryptsTheBlock :
    (State.reset.fcause = none ∧ State.reset.nr = 0) ∧
    ((withCount 34).fcause = none ∧ (withCount 34).nr ≠ 0 ∧ ¬(0 = 16 ∧ 16 = 16) ∧ ¬(255 = 16 ∧ 255 = 16)) ∧
    ((keyed 16).fcause = none ∧ (keyed 16).nr ≠ 0 ∧ (keyed 16).nr.toNat ≤ 34) ∧
    ((keyed 32).fcause = none ∧ (keyed 32).nr ≠ 0 ∧ (keyed 32).nr.toNat ≤ 34) := by decide +kernel

theorem test_witness_RndfAppliesOneForwardRound :
    (staged 16).fcause = none ∧ ¬(15 = 16 ∧ 16 = 16) ∧ (.b0 : Slot) ≠ .b1 := by decide

theorem test_witness_RndiAppliesOneInverseRound :
    (withCount 32).fcause = none ∧ ¬(16 = 16 ∧ 17 = 16) ∧ (.b1 : Slot) ≠ .b0 := by decide

theorem test_witness_SingleRoundsUndoEachOther : (staged 16).fcause = none ∧ State.reset.fcause = none := by decide

theorem test_witness_DecryptUndoesEncrypt :
    (keyed 24).fcause = none ∧ (keyed 24).nr ≠ 0 ∧ (keyed 24).nr.toNat ≤ 34 := by decide +kernel

theorem test_witness_InPlaceEqualsOutOfPlace :
    (withCount 32).fcause = none ∧ Slot.b1 ≠ Slot.b0 ∧ (withCount 32).nr ≠ 0 ∧ (withCount 32).nr.toNat ≤ 34 ∧
    (staged 16).fcause = none := by decide

theorem test_witness_CipherIsIteratedSingleRounds :
    (keyed 32).fcause = none ∧ (keyed 32).nr ≠ 0 ∧ (keyed 32).nr.toNat ≤ 34 := by decide +kernel

/-- A block command that completes, one that fails, and one discarded. -/
theorem test_witness_BlockCommandFrame :
    (∃ t, exec (.rndf .b1 16 .b0 16) (staged 16) = .next t ∧ t.buf1 ≠ (staged 16).buf1 ∧ regionFirst (.buf .b1) = some 0x070) ∧
    (∃ t, exec (.dec .b1 15 .b0 16) (withCount 32) = .next t ∧ t.fcause ≠ (withCount 32).fcause) ∧
    (∃ t, exec (.enc .b0 16 .b0 16) aborted = .next t) :=
  ⟨⟨_, rfl, by decide +kernel, rfl⟩, ⟨_, rfl, by decide⟩, ⟨_, rfl⟩⟩

theorem test_witness_KeyxFrame :
    (∃ t, exec (.keyx 16) (staged 16) = .next t ∧ t.nr = 32) ∧
    (∃ t, exec (.keyx 15) (keyed 16) = .next t ∧ t.err = .invalidKeyLength) :=
  ⟨⟨_, rfl, by decide +kernel⟩, ⟨_, rfl, by decide +kernel⟩⟩

theorem test_witness_CommandsAreAllOrNothing : (withCount 34).nr.toNat ≤ 34 ∧ State.reset.nr.toNat ≤ 34 := by decide

/-- Two keys that agree on their first 16 bytes only. -/
theorem test_witness_KeyxReadsDeclaredBytesOnly :
    (staged 16).fcause = none ∧ ({ staged 16 with key := (staged 16).key.set 16 0 } : State).fcause = none ∧
    (staged 16).key.toList.take 16 = ((staged 16).key.set 16 0).toList.take 16 ∧ (staged 16).key ≠ (staged 16).key.set 16 0 ∧
    exec (.keyx 16) (staged 16) = .next (keyed 16) ∧
    (∃ u, exec (.keyx 16) { staged 16 with key := (staged 16).key.set 16 0 } = .next u) :=
  ⟨by decide, by decide, by decide, by decide, eq_next_of_ended (by decide +kernel), ⟨_, rfl⟩⟩

theorem test_witness_KeyxTwiceIsKeyxOnce : exec (.keyx 24) (staged 24) = .next (keyed 24) ∧ (keyed 24).nr = 33 :=
  ⟨eq_next_of_ended (by decide +kernel), by decide +kernel⟩

theorem test_witness_FailedKeyxKeepsTheContext :
    (keyed 16).fcause = none ∧ 4 ≠ 16 ∧ 4 ≠ 24 ∧ 4 ≠ 32 ∧ (keyed 16).nr ≠ 0 ∧ (keyed 16).nr.toNat ≤ 34 := by decide +kernel

theorem test_witness_CipherIgnoresKeyAndOperand :
    (∃ t, exec (.enc .b1 16 .b0 16) (withCount 32) = .next t ∧ t.err = .ok) ∧
    (∃ t, exec (.dec .b1 16 .b0 16) (withCount 34) = .next t ∧ t.err = .ok) :=
  ⟨⟨_, rfl, rfl⟩, ⟨_, rfl, rfl⟩⟩

/-- The premises, for equal and for different commands, at 33 and 34 rounds. -/
theorem test_witness_CallersOnOwnSlotsCommute :
    ((withCount 33).fcause = none ∧ (withCount 33).nr ≠ 0 ∧ (withCount 33).nr.toNat ≤ 34 ∧ Slot.b0 ≠ Slot.b1 ∧
      (Instr.enc = Instr.enc ∨ Instr.enc = Instr.dec) ∧ (Instr.enc = Instr.enc ∨ Instr.enc = Instr.dec)) ∧
    ((withCount 34).fcause = none ∧ (withCount 34).nr ≠ 0 ∧ (withCount 34).nr.toNat ≤ 34 ∧ Slot.b1 ≠ Slot.b0 ∧
      (Instr.enc = Instr.enc ∨ Instr.enc = Instr.dec) ∧ (Instr.dec = Instr.enc ∨ Instr.dec = Instr.dec)) :=
  ⟨⟨by decide, by decide, by decide, by decide, .inl rfl, .inl rfl⟩,
   ⟨by decide, by decide, by decide, by decide, .inl rfl, .inr rfl⟩⟩

/-- Both sides of the two exact characterisations, at the edges of the regions. -/
theorem test_witness_AdmittedAccesses :
    verdict State.reset.toEngine (.memRead 0x208 8) = .performed ∧ verdict State.reset.toEngine (.memRead 0x20F 1) = .performed ∧
    verdict State.reset.toEngine (.memRead 0x210 1) = .refused ∧ verdict State.reset.toEngine (.memRead 0x01E 2) = .performed ∧
    verdict State.reset.toEngine (.memWrite 0x07F [1]) = .performed ∧
    verdict State.reset.toEngine (.memWrite 0x080 [1]) = .refused ∧
    verdict State.reset.toEngine (.memWrite 0x000 [0, 0, 0, 1]) = .performed ∧
    verdict aborted.toEngine (.memWrite 0x000 [0, 0, 0, 1]) = .discarded ∧
    verdict aborted.toEngine (.memWrite 0x060 [1]) = .discarded ∧ verdict aborted.toEngine (.memWrite 0x06F [1, 2]) = .refused := by
  decide

theorem test_witness_RefusedAccessChangesNothing :
    (scripted State.reset [.memRead 0x000 4]).script = [.memRead 0x000 4] ∧
    verdict (scripted State.reset [.memRead 0x000 4]).toEngine (.memRead 0x000 4) = .refused ∧
    verdict aborted.toEngine (.memWrite 0x00C [0, 0, 0, 0]) = .refused := by decide

theorem test_witness_AdmittedReadDeliversTheImage :
    (scripted aborted [.memRead 0x01F 1]).script = [.memRead 0x01F 1] ∧
    verdict (scripted aborted [.memRead 0x01F 1]).toEngine (.memRead 0x01F 1) = .performed ∧
    (scripted aborted [.memRead 0x01F 1]).toEngine.RoundCountLegal ∧
    verdict (withCount 34).toEngine (.memRead 0x208 8) = .performed ∧ (withCount 34).toEngine.RoundCountLegal := by
  decide +kernel

theorem test_witness_DataWriteStoresItsBytes :
    (scripted State.reset [.memWrite 0x058 [1, 2, 3, 4, 5, 6, 7, 8]]).script = [.memWrite 0x058 [1, 2, 3, 4, 5, 6, 7, 8]] ∧
    verdict State.reset.toEngine (.memWrite 0x058 [1, 2, 3, 4, 5, 6, 7, 8]) = .performed ∧ 0x058 ≠ 0x000 ∧
    verdict State.reset.toEngine (.memWrite 0x07F [9]) = .performed := by decide

theorem test_witness_WriteWidthIsIrrelevant :
    State.reset.script = [] ∧ ([1, 2, 3, 4] : List Byte).length = ([5, 6, 7, 8] : List Byte).length ∧ 0x040 ≠ 0x000 ∧
    verdict State.reset.toEngine (.memWrite 0x040 ([1, 2, 3, 4] ++ [5, 6, 7, 8])) = .performed := by decide

theorem test_witness_BlockSizeReadsSixteen :
    (scripted aborted [.memRead 0x008 4]).script = [.memRead 0x008 4] ∧
    (scripted (withCount 35) [.memRead 0x008 4, .reset]).script = [.memRead 0x008 4, .reset] := by decide

theorem test_witness_AlgorithmNameByRoundCount :
    State.reset.nr = 0 ∧ (withCount 32).nr = 32 ∧ (withCount 33).nr = 33 ∧ (withCount 34).nr = 34 ∧
    (¬ (scripted (withCount 35) [.memRead 0x018 8]).toEngine.RoundCountLegal ∧
      verdict (withCount 35).toEngine (.memRead 0x018 8) = .performed) := by decide

theorem test_witness_ByteImage :
    algorithmName (withCount 33).nr = some (namePrefix ++ [0x31, 0x39, 0x32, 0x00, 0x00, 0x00, 0x00]) ∧ 33 < 34 ∧ 7 < 8 := by
  decide

theorem test_witness_ContextChangesByKeyxOrReset :
    (∃ t, step (scripted (staged 16) [cmdWrite 0x00100001]) = .next t ∧ t.nr ≠ (staged 16).nr) ∧
    (∃ t, step (scripted (withCount 32) [.reset]) = .next t ∧ t.nr ≠ (withCount 32).nr) :=
  ⟨⟨_, rfl, by decide +kernel⟩, ⟨_, rfl, by decide⟩⟩

theorem test_witness_KeyAndOperandChangeByHostOnly :
    (∃ t, step (scripted State.reset [.memWrite 0x05F [1]]) = .next t ∧ t.key ≠ State.reset.key) ∧
    (∃ t, step (scripted State.reset [.memWrite 0x020 [1]]) = .next t ∧ t.kop ≠ State.reset.kop) ∧
    (∃ t, step (scripted (staged 16) [.reset]) = .next t ∧ t.key ≠ (staged 16).key) :=
  ⟨⟨_, rfl, by decide⟩, ⟨_, rfl, by decide⟩, ⟨_, rfl, by decide⟩⟩

theorem test_witness_SlotChangesByWriteOrDestination :
    (∃ t, step (scripted State.reset [.memWrite 0x07F [1]]) = .next t ∧
      readSlot .b1 t.toEngine ≠ readSlot .b1 State.reset.toEngine) ∧
    (∃ t, step (scripted (staged 16) [cmdWrite 0x10100204]) = .next t ∧
      readSlot .b1 t.toEngine ≠ readSlot .b1 (staged 16).toEngine) ∧
    (∃ t, step (scripted (staged 16) [.reset]) = .next t ∧ readSlot .b0 t.toEngine ≠ readSlot .b0 (staged 16).toEngine) :=
  ⟨⟨_, rfl, by decide⟩, ⟨_, rfl, by decide +kernel⟩, ⟨_, rfl, by decide⟩⟩

theorem test_witness_FlagsChangeByCommandsOnly :
    (∃ t, step (scripted State.reset [cmdWrite 0x00040001]) = .next t ∧ t.err ≠ State.reset.err) ∧
    (∃ t, step (scripted State.reset [cmdWrite 0x10100002]) = .next t ∧ t.fcause ≠ State.reset.fcause) ∧
    (∀ rest, (scripted State.reset [cmdWrite 0x00040001]).script ≠ .reset :: rest) :=
  ⟨⟨_, rfl, by decide⟩, ⟨_, rfl, by decide⟩, by intro rest h; cases h⟩

theorem test_witness_FatalStateDiscardsCommands : aborted.fcause ≠ none := by decide

/-- The fatal state under each kind of access. -/
theorem test_witness_FatalStateIsAbsorbing :
    aborted.fcause ≠ none ∧ verdict aborted.toEngine (.memWrite 0x000 [0, 0x10, 0, 1]) ≠ .refused ∧
    verdict aborted.toEngine (.memWrite 0x040 [1]) ≠ .refused ∧ verdict aborted.toEngine (.memRead 0x004 4) ≠ .refused ∧
    readBytes aborted.toEngine 0x004 4 = some [0x00, 0x20, 0x02, 0x03] ∧
    verdict aborted.toEngine (.memRead 0x000 4) = .refused ∧ HostStep.memRead 0x000 4 ≠ .reset := by decide +kernel

theorem test_witness_FatalEntryChangesFcauseOnly :
    (∃ t, (scripted (keyed 16) [cmdWrite 0x100F0002]).fcause = none ∧
      step (scripted (keyed 16) [cmdWrite 0x100F0002]) = .next t ∧ t.fcause = some .buflen) ∧
    (∃ t, step (scripted State.reset [cmdWrite 0x10100002]) = .next t ∧ t.fcause = some .noctx) ∧
    (∃ t, step (scripted State.reset [cmdWrite 0x00000000]) = .next t ∧ t.fcause = some .illcmd) :=
  ⟨⟨_, by decide +kernel, rfl, by decide +kernel⟩, ⟨_, rfl, by decide⟩, ⟨_, rfl, by decide⟩⟩

theorem test_witness_RoundCountPastTheFileStops : (withCount 35).fcause = none ∧ 34 < (withCount 35).nr.toNat := by decide

theorem test_witness_ResetStateIsZero :
    byteAt State.reset.toEngine 0x00B = some 0x10 ∧ byteAt State.reset.toEngine 0x20F = some 0x00 := by decide

theorem test_witness_ResetIsTotalAndTheOnlyExit :
    (scripted aborted [.reset]).script = [.reset] ∧
    (∃ t, step (scripted aborted [.reset]) = .next t ∧ aborted.fcause ≠ none ∧ t.fcause = none ∧ aborted.nr ≠ 0 ∧ t.nr = 0) :=
  ⟨rfl, ⟨_, rfl, by decide, rfl, by decide +kernel, rfl⟩⟩

/-- The invariants hold with a context as without one, and in the fatal state. -/
theorem keyed_inv (klen : Nat) (h : klen = 16 ∨ klen = 24 ∨ klen = 32) : (keyed klen).toEngine.Inv := by
  rcases h with rfl | rfl | rfl
  · exact ⟨by decide +kernel, ⟨by decide +kernel, fun _ => ⟨keyBytes 16 (staged 16).toEngine, by decide +kernel⟩⟩,
      by decide +kernel, by decide +kernel⟩
  · exact ⟨by decide +kernel, ⟨by decide +kernel, fun _ => ⟨keyBytes 24 (staged 24).toEngine, by decide +kernel⟩⟩,
      by decide +kernel, by decide +kernel⟩
  · exact ⟨by decide +kernel, ⟨by decide +kernel, fun _ => ⟨keyBytes 32 (staged 32).toEngine, by decide +kernel⟩⟩,
      by decide +kernel, by decide +kernel⟩

theorem test_witness_StepKeepsTheInvariants :
    (scripted (keyed 16) [cmdWrite 0x00200001]).toEngine.Inv ∧
    ∃ t, step (scripted (keyed 16) [cmdWrite 0x00200001]) = .next t :=
  ⟨keyed_inv 16 (by decide), ⟨_, rfl⟩⟩

theorem test_witness_NothingStopsTheEngine :
    (scripted (keyed 32) [.memRead 0x010 8]).toEngine.Inv ∧ (scripted (keyed 24) [cmdWrite 0x10100002]).toEngine.Inv :=
  ⟨keyed_inv 32 (by decide), keyed_inv 24 (by decide)⟩

/-- Two machines that differ in their hidden registers alone, running a command; and reading a name that has no value. -/
theorem test_witness_HiddenRegistersAreUnobservable :
    (scripted (staged 16) [cmdWrite 0x10100204]).VisiblyEqual
      { scripted (staged 16) [cmdWrite 0x10100204] with seq := Sequencer.reset } ∧
    staged 16 ≠ { staged 16 with seq := Sequencer.reset } ∧
    (∃ t, step (scripted (staged 16) [cmdWrite 0x10100204]) = .next t) ∧
    step (scripted (withCount 35) [.memRead 0x010 1]) = .fault .algorithmNameUndefined :=
  ⟨⟨rfl, rfl, rfl⟩, by decide, ⟨_, rfl⟩, rfl⟩

theorem test_witness_KeyxMicroStepsReachTheRule :
    (staged 24).fcause = none ∧ ∀ klen ∈ [16, 24, 32], klen = 16 ∨ klen = 24 ∨ klen = 32 := by decide

theorem test_witness_BlockMicroStepsReachTheRule :
    (withCount 34).fcause = none ∧ (withCount 34).nr ≠ 0 ∧ (withCount 34).nr.toNat ≤ 34 ∧
    (withCount 1).nr ≠ 0 ∧ (withCount 1).nr.toNat ≤ 34 := by decide

/-- Each clause, each side of its tests: a good and a bad key length are both values of `klen`. -/
theorem test_witness_StatusCodesOfEachOutcome :
    (staged 16).fcause = none ∧
    ((withCount 34).fcause = none ∧ (Instr.dec = Instr.enc ∨ Instr.dec = Instr.dec) ∧ (withCount 34).nr.toNat ≤ 34 ∧
      (staged 16).nr = 0 ∧ (staged 16).nr.toNat ≤ 34) ∧
    (State.reset.fcause = none ∧ (Instr.rndf = Instr.rndf ∨ Instr.rndf = Instr.rndi)) ∧
    ((scripted State.reset [cmdWrite 0x00100006]).script = [.memWrite 0x000 [0x00, 0x10, 0x00, 0x06]] ∧
      ([0x00, 0x10, 0x00, 0x06] : List Byte).length = 4 ∧ (scripted State.reset [cmdWrite 0x00100006]).fcause = none ∧
      decode (be32 [0x00, 0x10, 0x00, 0x06]) = .illegal .opcode) :=
  ⟨by decide, ⟨by decide, .inr rfl, by decide, by decide, by decide⟩, ⟨by decide, .inl rfl⟩, by decide⟩

/-- The rows of `BLKSZ`, `KOP` and `RK` at the ends of their sizes; the legal counts; a well-formed command. -/
theorem test_witness_ScriptNotationMeansItsAccesses :
    (∃ row ∈ windowMap, row.region = .blksz ∧ Right.read ∈ row.rights ∧ 4 ≤ row.size ∧ (1 ∈ row.widths ∨ 4 % 4 = 0)) ∧
    (∃ row ∈ windowMap, row.region = .rk ∧ Right.read ∈ row.rights ∧ 272 ≤ row.size ∧ (1 ∈ row.widths ∨ 272 % 4 = 0)) ∧
    (withCount 34).toEngine.RoundCountLegal ∧ State.reset.toEngine.RoundCountLegal ∧
    (∃ row ∈ windowMap, row.region = .kop ∧ Right.write ∈ row.rights ∧ row.region ≠ .cmd ∧
      7 + ([0xAA] : List Byte).length ≤ row.size) ∧
    (staged 16).fcause = none ∧ (Instr.enc .b1 255 .b0 16).wf = true := by decide

end Sys2Proof.Tests
end

section
/-!
PROOFS. The words of spec/00_scope.md: the byte order (R8) and the word arithmetic (R9), each function's value and its bits.
-/

namespace Sys2Proof.Machine

/-! ### Byte order (spec/00_scope.md R8) -/

/-- The value of a 64-bit word read from its bytes: nothing is lost to the wrap at 2^64. -/
theorem be64_toNat (b0 b1 b2 b3 b4 b5 b6 b7 : Byte) :
    (be64 [b0, b1, b2, b3, b4, b5, b6, b7]).toNat =
      b0.toNat * 2 ^ 56 + b1.toNat * 2 ^ 48 + b2.toNat * 2 ^ 40 + b3.toNat * 2 ^ 32 +
      b4.toNat * 2 ^ 24 + b5.toNat * 2 ^ 16 + b6.toNat * 2 ^ 8 + b7.toNat := by
  have fits : beNat [b0, b1, b2, b3, b4, b5, b6, b7] < 2 ^ 64 := (beNat_lt _).trans_eq (by norm_num)
  rw [be64, BitVec.toNat_ofNat, Nat.mod_eq_of_lt fits, beNat_eight]

/-- The value of a 32-bit word read from its bytes: nothing is lost to the wrap at 2^32. -/
theorem be32_toNat (b0 b1 b2 b3 : Byte) :
    (be32 [b0, b1, b2, b3]).toNat =
      b0.toNat * 2 ^ 24 + b1.toNat * 2 ^ 16 + b2.toNat * 2 ^ 8 + b3.toNat := by
  have fits : beNat [b0, b1, b2, b3] < 2 ^ 32 := (beNat_lt _).trans_eq (by norm_num)
  rw [be32, BitVec.toNat_ofNat, Nat.mod_eq_of_lt fits, beNat_four]

/-- Byte `j` of a 64-bit word, counted from the most significant. -/
theorem bytes64_getElem? (v : Word) {j : Nat} (hj : j < 8) :
    (bytes64 v)[j]? = some (v.extractLsb' (56 - 8 * j) 8) := by
  interval_cases j <;> rfl

/-- Byte `j` of a 32-bit word, counted from the most significant. -/
theorem bytes32_getElem? (v : Word32) {j : Nat} (hj : j < 4) :
    (bytes32 v)[j]? = some (v.extractLsb' (24 - 8 * j) 8) := by
  interval_cases j <;> rfl

/-- Settles O1: the values and byte positions of both sizes, and that reading and writing a word undo each other. -/
theorem wordsAreBigEndian : Obligations.WordsAreBigEndian :=
  ⟨be64_toNat, fun v _ => bytes64_getElem? v, fun _ => bytes64_be64, be64_bytes64,
    be32_toNat, fun v _ => bytes32_getElem? v, fun _ => bytes32_be32, be32_bytes32⟩

/-! ### Word arithmetic (spec/00_scope.md R9) -/

/-- The sum wraps at 2^64. -/
theorem add64_toNat (a b : Word) : (add64 a b).toNat = (a.toNat + b.toNat) % 2 ^ 64 := by
  rw [add64, BitVec.toNat_ofNat]

/-- The difference wraps at 2^64: the borrow that `sub64` adds is a multiple of the modulus. -/
theorem sub64_toNat (a b : Word) : ((sub64 a b).toNat : Int) = ((a.toNat : Int) - b.toNat) % 2 ^ 64 := by
  have hb := b.isLt
  rw [sub64, BitVec.toNat_ofNat]
  omega

/-- Exclusive-or works bit by bit. -/
theorem xor64_getLsbD (a b : Word) (i : Nat) : (xor64 a b).getLsbD i = (a.getLsbD i ^^ b.getLsbD i) := by
  rw [xor64, BitVec.getLsbD_xor]

/-- A right rotation as shifts on naturals: only the left shift leaves the word. -/
theorem ror64_toNat (a : Word) (r : Nat) :
    (ror64 a r).toNat = (a.toNat >>> r ||| a.toNat <<< (64 - r)) % 2 ^ 64 := by
  have fits : a.toNat >>> r < 2 ^ 64 := (Nat.shiftRight_le _ _).trans_lt a.isLt
  rw [ror64, BitVec.toNat_or, BitVec.toNat_ushiftRight, BitVec.toNat_shiftLeft, Nat.or_mod_two_pow,
    Nat.mod_eq_of_lt fits]

/-- A left rotation as shifts on naturals: only the left shift leaves the word. -/
theorem rol64_toNat (a : Word) (r : Nat) :
    (rol64 a r).toNat = (a.toNat <<< r ||| a.toNat >>> (64 - r)) % 2 ^ 64 := by
  have fits : a.toNat >>> (64 - r) < 2 ^ 64 := (Nat.shiftRight_le _ _).trans_lt a.isLt
  rw [rol64, BitVec.toNat_or, BitVec.toNat_ushiftRight, BitVec.toNat_shiftLeft, Nat.or_mod_two_pow,
    Nat.mod_eq_of_lt fits]

/-- Bit `i` of a right rotation comes from bit `i + r`, around the word's end where that passes bit 63. -/
theorem ror64_getLsbD (a : Word) {r i : Nat} (hr : r < 64) (hi : i < 64) :
    (ror64 a r).getLsbD i = a.getLsbD ((i + r) % 64) := by
  rw [ror64_eq a hr, BitVec.getLsbD_rotateRight, Nat.mod_eq_of_lt hr]
  by_cases inside : i < 64 - r
  · have source : (i + r) % 64 = r + i := by omega
    simp [inside, source]
  · have source : (i + r) % 64 = i - (64 - r) := by omega
    simp [inside, hi, source]

/-- Rotating left by `r` is rotating right by what is left of the word. -/
theorem rol64_eq_ror64 (a : Word) {r : Nat} (hr : r ≤ 64) : rol64 a r = ror64 a (64 - r) := by
  rw [rol64, ror64, Nat.sub_sub_self hr, BitVec.or_comm]

/-- Bit `i` of a left rotation comes from bit `i - r` modulo 64. -/
theorem rol64_getLsbD (a : Word) {r i : Nat} (hr0 : 0 < r) (hr : r < 64) (hi : i < 64) :
    (rol64 a r).getLsbD i = a.getLsbD ((i + (64 - r)) % 64) := by
  rw [rol64_eq_ror64 a hr.le, ror64_getLsbD a (by omega) hi]

/-- Settles O2: each word operation by value or by bits, the rotations by both. -/
theorem wordArithmeticWraps : Obligations.WordArithmeticWraps :=
  ⟨add64_toNat, sub64_toNat, fun a b i _ => xor64_getLsbD a b i,
    fun a r _ _ => ror64_toNat a r, fun a r _ _ => rol64_toNat a r,
    fun a _ _ _ hr hi => ror64_getLsbD a hr hi, fun a _ _ hr0 hr hi => rol64_getLsbD a hr0 hr hi⟩

end Sys2Proof.Machine
end

section
/-!
PROOFS. The state of spec/10_state.md: its invariants (R33, R42), the hidden working registers, who may change what (R34), the
frames of the commands, and what the host reads of the state (R30, R32, R45).
-/

namespace Sys2Proof.Machine

/-! ### A step of the machine, by what it makes of the engine -/

/-- The host step waiting is a 4-byte write of `v` to `CMD`, and the engine is not in the fatal state: the word `be32 v` is
dispatched (spec/30_encoding.md R86). -/
def State.Dispatches (s : State) (v : List Byte) : Prop :=
  s.fcause = none ∧ v.length = 4 ∧ ∃ rest, s.script = .memWrite 0x000 v :: rest

/-- A block command with both declared lengths 16 and destination `d` (spec/30_encoding.md R83). -/
def BlockInto (d : Slot) (i : Instr) : Prop :=
  ∃ ss, i = .enc d 16 ss 16 ∨ i = .dec d 16 ss 16 ∨ i = .rndf d 16 ss 16 ∨ i = .rndi d 16 ss 16

/-- Everything a step that answers a next state can make of the engine of `s` (spec/10_state.md R34): the effects that `step_cases`
and `exec_cases` list, without the host's side. -/
inductive EngineStep (s : State) : Engine → Prop
  /-- Nothing waiting, a read, a refused access, a write discarded in the fatal state. -/
  | kept : EngineStep s s.toEngine
  | reset {rest : List HostStep} : s.script = .reset :: rest → EngineStep s Engine.reset
  | stored {off : Nat} {v : List Byte} {rest : List HostStep} {row : MapRow} : s.script = .memWrite off v :: rest →
      s.fcause = none → admittedRow .write off v.length = some row → row.region ≠ .cmd →
      EngineStep s (writeRegion s.toEngine (off - row.first) v row.region)
  | fatal {v : List Byte} {cause : FatalCause} : s.Dispatches v → EngineStep s (raiseFatal cause s.toEngine)
  | badLength {v : List Byte} {klen : Nat} : s.Dispatches v → decode (be32 v) = .command (.keyx klen) →
      keyLengthOk klen = false → EngineStep s (raiseRecoverable .invalidKeyLength s.toEngine)
  | context {v : List Byte} {klen : Nat} : s.Dispatches v → decode (be32 v) = .command (.keyx klen) →
      keyLengthOk klen = true → EngineStep s (constructContext klen s.toEngine)
  | block {v : List Byte} {i : Instr} {d : Slot} {x : Word × Word} {ridx : BitVec 6} : s.Dispatches v →
      decode (be32 v) = .command i → BlockInto d i → EngineStep s (completeBlock d x ridx s.toEngine)

/-- A dispatched command that answers a next state is one of the effects of `EngineStep`. -/
theorem engineStep_of_exec {s t : State} {v : List Byte} {i : Instr} {rest : List HostStep} {a : Answer} (hw : s.Dispatches v)
    (hd : decode (be32 v) = .command i) (h : exec i { s with script := rest, answer := a } = .next t) :
    EngineStep s t.toEngine := by
  rcases exec_cases h with ⟨_, rfl⟩ |
      ⟨_, ⟨klen, rfl, hk, rfl⟩ | ⟨cause, rfl⟩ | ⟨klen, rfl, hk, rfl⟩ | ⟨d, ss, x, ridx, hi, rfl⟩⟩
  · exact .kept
  · exact .badLength hw hd hk
  · exact .fatal hw
  · exact .context hw hd hk
  · refine .block hw hd ⟨ss, ?_⟩
    rcases hi with ⟨hi, _⟩ | ⟨hi, _⟩ | ⟨hi, _⟩ | ⟨hi, _⟩ <;> simp [hi]

/-- Every step that answers a next state is one of the effects of `EngineStep`. -/
theorem engineStep_of_step {s t : State} (h : step s = .next t) : EngineStep s t.toEngine := by
  rcases step_cases h with ⟨_, rfl⟩ | ⟨_, rest, hs, ⟨_, rfl⟩ | ⟨_, rfl⟩ | ⟨rfl, rfl⟩ | ⟨_, _, _, _, _, _, rfl⟩ | hwrite⟩
  · exact .kept
  · exact .kept
  · exact .kept
  · exact .reset hs
  · exact .kept
  · obtain ⟨off, v, row, rfl, hrow, hf, hcase⟩ := hwrite
    have dispatches (hr : row.region = .cmd) : s.Dispatches v := by
      obtain ⟨rfl, hv⟩ := admittedRow_cmd hrow hr
      exact ⟨hf, hv, rest, hs⟩
    rcases hcase with ⟨hr, rfl⟩ | ⟨hr, _, rfl⟩ | ⟨hr, i, hd, hx⟩
    · exact .stored hs hf hrow hr
    · exact .fatal (dispatches hr)
    · exact engineStep_of_exec (dispatches hr) hd hx

/-! ### Command dispatch (spec/30_encoding.md R86), case by case -/

section
variable {run : Instr → State → StepResult} {w : Word32} {s : State}

theorem dispatchWord_fatal (h : s.fcause ≠ none) : dispatchWord run w s = .next s := by
  simp [dispatchWord, fatalFlag_eq_true.mpr h]

theorem dispatchWord_illegal {why : Illegal} (h : s.fcause = none) (hd : decode w = .illegal why) :
    dispatchWord run w s = .next { s with toEngine := raiseFatal .illcmd s.toEngine } := by
  simp [dispatchWord, fatalFlag_eq_false.mpr h, hd]

theorem dispatchWord_command {i : Instr} (h : s.fcause = none) (hd : decode w = .command i) :
    dispatchWord run w s = run i s := by
  simp [dispatchWord, fatalFlag_eq_false.mpr h, hd]

end

/-! ### The state invariants (spec/10_state.md R33, R42) -/

/-- `ERR` and `FCAUSE` are enumerations, so no state holds a code that does not exist. -/
theorem codesLegal (e : Engine) : e.CodesLegal := by
  refine ⟨?_, ?_⟩
  · cases e.err <;> decide
  · rcases e.fcause with _ | _ | _ | _ <;> decide

/-- The invariants depend on `RK`, `NR` and `PHASE` alone. -/
theorem Engine.Inv.congr {a b : Engine} (h : a.Inv) (hrk : b.rk = a.rk) (hnr : b.nr = a.nr) (hidle : b.Idle) : b.Inv := by
  obtain ⟨hcount, hfile, _, _⟩ := h
  refine ⟨?_, ?_, codesLegal b, hidle⟩
  · rwa [Engine.RoundCountLegal, hnr]
  · rwa [Engine.FileIsSchedule, contextKeys, hrk, hnr]

/-- The entries of a sequence stored by `padTo`, read back. -/
theorem padTo_toList_take {w n : Nat} {l : List (BitVec w)} (h : l.length ≤ n) : (padTo n l).toList.take l.length = l := by
  apply List.ext_getElem
  · simp [h]
  · intro i h1 h2
    simp [List.getD, h2]

/-- An accepted key length gives a legal round count, that many times 8 bytes above 30 (spec/41_key_schedule.md R102). -/
theorem roundCount_of_keyLengthOk {klen : Nat} (hk : keyLengthOk klen = true) :
    klen ≤ 32 ∧ roundCount klen ≤ 34 ∧ klen = 8 * (roundCount klen - 30) ∧
      (BitVec.ofNat 6 (roundCount klen)).toNat = roundCount klen ∧
      (BitVec.ofNat 6 (roundCount klen) = 32 ∨ BitVec.ofNat 6 (roundCount klen) = 33 ∨ BitVec.ofNat 6 (roundCount klen) = 34) := by
  rcases keyLengthOk_iff.mp hk with rfl | rfl | rfl <;> decide

/-- A new context meets the invariants: its round-key file is the schedule of the key bytes (spec/41_key_schedule.md R108). -/
theorem constructContext_inv {klen : Nat} (hk : keyLengthOk klen = true) (e : Engine) : (constructContext klen e).Inv := by
  obtain ⟨hle, hrc, hlen, htoNat, hcount⟩ := roundCount_of_keyLengthOk hk
  have hkey : (keyBytes klen e).length = klen := keyBytes_length hle e
  have hks : (keySchedule (keyBytes klen e)).length = roundCount klen := by rw [keySchedule_length, hkey]
  refine ⟨?_, ⟨?_, fun _ => ⟨keyBytes klen e, ?_, ?_, ?_⟩⟩, codesLegal _, constructContext_phase klen e⟩
  · rw [Engine.RoundCountLegal, constructContext_nr]; exact .inr hcount
  · intro h0
    rw [constructContext_nr] at h0
    rw [h0] at hcount
    exact absurd hcount (by decide)
  · rw [constructContext_nr, htoNat, hkey, ← hlen]
  · rw [contextKeys, constructContext_rk, constructContext_nr, htoNat, ← hks]
    exact padTo_toList_take (hks.trans_le hrc)
  · intro i hi
    rw [constructContext_nr, htoNat, ← hks] at hi
    simp [List.getD, List.getElem?_eq_none hi]

/-- Settles O51: without a context `RK` must be all zero, and it is. -/
theorem invariantsHoldAtReset : Obligations.InvariantsHoldAtReset := by
  refine ⟨.inl rfl, ⟨fun _ i => ?_, fun h => absurd rfl h⟩, codesLegal _, rfl⟩
  simp [State.reset, Engine.reset]

/-- Every effect of a step keeps the invariants: `KEYX` builds a context that meets them, `Reset` the empty one, and nothing else
touches `RK` or `NR`. -/
theorem EngineStep.inv {s : State} {e : Engine} (h : EngineStep s e) (hinv : s.toEngine.Inv) : e.Inv := by
  have ⟨_, _, _, hidle⟩ := hinv
  cases h with
  | kept => exact hinv
  | reset => exact invariantsHoldAtReset
  | stored => exact hinv.congr (by simp) (by simp) (by simpa [Engine.Idle] using hidle)
  | fatal => exact hinv.congr rfl rfl hidle
  | badLength => exact hinv.congr rfl rfl hidle
  | context _ _ hk => exact constructContext_inv hk _
  | block => exact hinv.congr (by simp) (by simp) (by simp [Engine.Idle])

/-- Settles O52: by the effects a step can have. -/
theorem stepKeepsTheInvariants : Obligations.StepKeepsTheInvariants :=
  fun _ _ hinv h => (engineStep_of_step h).inv hinv

/-! ### The hidden working registers (spec/10_state.md R42) -/

/-- Two outcomes alike: next states that are related, or the same fault; never a refusal. -/
inductive Alike {σ : Type} (R : σ → σ → Prop) : Host.Outcome σ Fault Refusal → Host.Outcome σ Fault Refusal → Prop
  | next {a b : σ} : R a b → Alike R (.next a) (.next b)
  | fault (r : Fault) : Alike R (.fault r) (.fault r)

/-- What alikeness says of the first outcome. -/
theorem Alike.outcomes {σ : Type} {R : σ → σ → Prop} {o p : Host.Outcome σ Fault Refusal} (h : Alike R o p) :
    (∀ t, o = .next t → ∃ u, p = .next u ∧ R t u) ∧ (∀ r, o = .fault r → p = .fault r) ∧ ∀ r, o ≠ .refused r := by
  cases h with
  | next hab => exact ⟨by rintro _ ⟨⟩; exact ⟨_, rfl, hab⟩, nofun, nofun⟩
  | fault r => exact ⟨nofun, fun _ h => h, nofun⟩

/-- Machines that agree on everything but the hidden registers are one machine with other values in them. -/
theorem State.VisiblyEqual.eq_with_seq {a b : State} (h : a.VisiblyEqual b) : b = { a with seq := b.seq } := by
  obtain ⟨he, hs, ha⟩ := h
  change b = ⟨{ a.toEngine with seq := b.seq }, a.script, a.answer⟩
  rw [hs, ha, show { a.toEngine with seq := b.seq } = b.toEngine from he]

/-! The two runs: `s` or `e`, and the same with other hidden registers `q`. -/

section
variable (q : Sequencer)

theorem byteAt_with_seq (e : Engine) (off : Nat) : byteAt { e with seq := q } off = byteAt e off :=
  byteAt_congr fun row _ _ _ => by cases row.region with
    | buf d => cases d <;> rfl
    | _ => rfl

theorem readBytes_with_seq (e : Engine) (off n : Nat) : readBytes { e with seq := q } off n = readBytes e off n := by
  induction n generalizing off with
  | zero => rfl
  | succ n ih => rw [readBytes, readBytes, byteAt_with_seq, ih]

theorem writeRegion_visiblyEqual (e : Engine) (j : Nat) (bs : List Byte) (r : Region) :
    (writeRegion e j bs r).VisiblyEqual (writeRegion { e with seq := q } j bs r) := by
  cases r with
  | buf d => cases d <;> rfl
  | _ => rfl

theorem loadBlock_with_seq (d : Slot) (e : Engine) : loadBlock d { e with seq := q } = loadBlock d e :=
  loadBlock_congr (by cases d <;> rfl)

/-- The visible end of a block command is decided by the words it stores. -/
theorem completeBlock_visiblyEqual (d : Slot) {x y : Word × Word} (h : x = y) (r r' : BitVec 6) (e : Engine) :
    (completeBlock d x r e).VisiblyEqual (completeBlock d y r' { e with seq := q }) := by
  subst h
  cases d <;> rfl

theorem encBody_visiblyEqual (ds ss : Slot) (e : Engine) : (encBody ds ss e).VisiblyEqual (encBody ds ss { e with seq := q }) :=
  completeBlock_visiblyEqual q ds (congrArg (encryptWords (contextKeys e)) (loadBlock_with_seq q ss e).symm) ..

theorem decBody_visiblyEqual (ds ss : Slot) (e : Engine) : (decBody ds ss e).VisiblyEqual (decBody ds ss { e with seq := q }) :=
  completeBlock_visiblyEqual q ds (congrArg (decryptWords (contextKeys e)) (loadBlock_with_seq q ss e).symm) ..

theorem rndfBody_visiblyEqual (ds ss : Slot) (e : Engine) :
    (rndfBody ds ss e).VisiblyEqual (rndfBody ds ss { e with seq := q }) :=
  completeBlock_visiblyEqual q ds (congrArg (roundForward (operandKey e)) (loadBlock_with_seq q ss e).symm) ..

theorem rndiBody_visiblyEqual (ds ss : Slot) (e : Engine) :
    (rndiBody ds ss e).VisiblyEqual (rndiBody ds ss { e with seq := q }) :=
  completeBlock_visiblyEqual q ds (congrArg (roundInverse (operandKey e)) (loadBlock_with_seq q ss e).symm) ..

theorem keyxBody_alike (klen : Nat) (e : Engine) :
    Alike Engine.VisiblyEqual (keyxBody klen e) (keyxBody klen { e with seq := q }) := by
  unfold keyxBody
  split
  · exact .next rfl
  · exact .next rfl

theorem withContext_alike (dlen slen : Nat) {body : Engine → Engine} {e : Engine}
    (h : (body e).VisiblyEqual (body { e with seq := q })) :
    Alike Engine.VisiblyEqual (withContext dlen slen body e) (withContext dlen slen body { e with seq := q }) := by
  unfold withContext
  split
  · exact .next rfl
  · split
    · exact .next rfl
    · split
      · exact .fault _
      · exact .next h

theorem withBuffers_alike (dlen slen : Nat) {body : Engine → Engine} {e : Engine}
    (h : (body e).VisiblyEqual (body { e with seq := q })) :
    Alike Engine.VisiblyEqual (withBuffers dlen slen body e) (withBuffers dlen slen body { e with seq := q }) := by
  unfold withBuffers
  split
  · exact .next rfl
  · exact .next h

/-- A command whose body gives alike engines gives alike machines. -/
theorem runCommand_alike {body : Engine → EngineResult} {s : State}
    (h : Alike Engine.VisiblyEqual (body s.toEngine) (body { s.toEngine with seq := q })) :
    Alike State.VisiblyEqual (runCommand body s) (runCommand body { s with seq := q }) := by
  by_cases hf : s.fcause = none
  · rw [runCommand_live hf, runCommand_live (s := { s with seq := q }) hf, onEngine, onEngine]
    generalize body s.toEngine = o, body { s.toEngine with seq := q } = p at h
    cases h with
    | next hab => exact .next ⟨hab, rfl, rfl⟩
    | fault r => exact .fault r
  · rw [runCommand_fatal hf, runCommand_fatal (s := { s with seq := q }) hf]
    exact .next ⟨rfl, rfl, rfl⟩

theorem exec_alike (i : Instr) (s : State) : Alike State.VisiblyEqual (exec i s) (exec i { s with seq := q }) := by
  cases i with
  | keyx klen => exact runCommand_alike q (keyxBody_alike q klen _)
  | enc ds dlen ss slen => exact runCommand_alike q (withContext_alike q dlen slen (encBody_visiblyEqual q ds ss _))
  | dec ds dlen ss slen => exact runCommand_alike q (withContext_alike q dlen slen (decBody_visiblyEqual q ds ss _))
  | rndf ds dlen ss slen => exact runCommand_alike q (withBuffers_alike q dlen slen (rndfBody_visiblyEqual q ds ss _))
  | rndi ds dlen ss slen => exact runCommand_alike q (withBuffers_alike q dlen slen (rndiBody_visiblyEqual q ds ss _))

theorem dispatchWord_alike (w : Word32) (s : State) :
    Alike State.VisiblyEqual (dispatchWord exec w s) (dispatchWord exec w { s with seq := q }) := by
  by_cases hf : s.fcause = none
  · cases hd : decode w with
    | illegal why =>
      rw [dispatchWord_illegal hf hd, dispatchWord_illegal (s := { s with seq := q }) hf hd]
      exact .next ⟨rfl, rfl, rfl⟩
    | command i =>
      rw [dispatchWord_command hf hd, dispatchWord_command (s := { s with seq := q }) hf hd]
      exact exec_alike q i s
  · rw [dispatchWord_fatal hf, dispatchWord_fatal (s := { s with seq := q }) hf]
    exact .next ⟨rfl, rfl, rfl⟩

theorem performRead_alike (off n : Nat) (s : State) :
    Alike State.VisiblyEqual (performRead off n s) (performRead off n { s with seq := q }) := by
  simp only [performRead, readBytes_with_seq]
  cases readBytes s.toEngine off n with
  | some bs => exact .next ⟨rfl, rfl, rfl⟩
  | none => exact .fault _

theorem performWrite_alike (off : Nat) (v : List Byte) (s : State) :
    Alike State.VisiblyEqual (performWrite exec off v s) (performWrite exec off v { s with seq := q }) := by
  unfold performWrite
  split
  · exact .next ⟨rfl, rfl, rfl⟩
  · rename_i row _
    split
    · exact dispatchWord_alike q _ (answering .done s)
    · exact .next ⟨writeRegion_visiblyEqual q _ _ _ _, rfl, rfl⟩

theorem performHostStep_alike (h : HostStep) (s : State) :
    Alike State.VisiblyEqual (performHostStep exec h s) (performHostStep exec h { s with seq := q }) := by
  have hv : verdict { s.toEngine with seq := q } h = verdict s.toEngine h := by cases h <;> rfl
  simp only [performHostStep, hv]
  cases verdict s.toEngine h with
  | refused => exact .next ⟨rfl, rfl, rfl⟩
  | discarded => exact .next ⟨rfl, rfl, rfl⟩
  | performed => cases h with
    | reset => exact .next ⟨rfl, rfl, rfl⟩
    | memRead off n => exact performRead_alike q off n s
    | memWrite off v => exact performWrite_alike q off v s

theorem step_alike (s : State) : Alike State.VisiblyEqual (step s) (step { s with seq := q }) := by
  simp only [step, takeHostStep]
  cases hs : s.script with
  | nil => exact .next ⟨rfl, hs, rfl⟩
  | cons h rest => exact performHostStep_alike q h { s with script := rest }

end

/-- Settles O54: no operation of the step reads a hidden register into anything but hidden registers. -/
theorem hiddenRegistersAreUnobservable : Obligations.HiddenRegistersAreUnobservable := by
  intro a b h
  rw [h.eq_with_seq]
  exact (step_alike b.seq a).outcomes

/-! ### Who may change what (spec/10_state.md R34) -/

theorem writeRegion_key_of_ne {r : Region} (h : r ≠ .key) (e : Engine) (j : Nat) (bs : List Byte) :
    (writeRegion e j bs r).key = e.key := by
  cases r with
  | key => exact absurd rfl h
  | buf d => exact writeSlot_key ..
  | _ => rfl

theorem writeRegion_kop_of_ne {r : Region} (h : r ≠ .kop) (e : Engine) (j : Nat) (bs : List Byte) :
    (writeRegion e j bs r).kop = e.kop := by
  cases r with
  | kop => exact absurd rfl h
  | buf d => exact writeSlot_kop ..
  | _ => rfl

theorem readSlot_writeRegion_of_ne {r : Region} {d : Slot} (h : r ≠ .buf d) (e : Engine) (j : Nat) (bs : List Byte) :
    readSlot d (writeRegion e j bs r) = readSlot d e := by
  cases r with
  | buf d' => exact readSlot_writeSlot_of_ne (fun hd => h (congrArg Region.buf hd.symm)) ..
  | _ => cases d <;> rfl

/-- An admitted access lies inside the span that the map gives its region; a region has one row (spec/20_memory.md R51). -/
theorem admittedRow_span {right : Right} {off n first size : Nat} {row : MapRow} {r : Region}
    (h : admittedRow right off n = some row) (hr : row.region = r)
    (hspan : ∃ x ∈ windowMap, x.region = r ∧ x.first = first ∧ x.size = size) : first ≤ off ∧ off + n ≤ first + size := by
  have unique : ∀ x ∈ windowMap, ∀ y ∈ windowMap, x.region = y.region → x = y := by decide
  obtain ⟨_, _, _, hmem, hfirst, hlast, _, _⟩ := admittedRow_cases h
  obtain ⟨x, hx, hxr, rfl, rfl⟩ := hspan
  obtain rfl := unique row hmem x hx (hr.trans hxr.symm)
  exact ⟨hfirst, hlast⟩

/-- Settles O41: of the effects of a step only a new context and `Reset` touch `RK` or `NR`. -/
theorem contextChangesByKeyxOrReset : Obligations.ContextChangesByKeyxOrReset := by
  intro s t h hne
  replace h := engineStep_of_step h
  generalize t.toEngine = e at h hne
  cases h with
  | reset hs => exact .inl ⟨_, hs⟩
  | context hw hd hk =>
    obtain ⟨hf, hv, rest, hs⟩ := hw
    exact .inr ⟨_, rest, _, hs, hv, hf, hd, keyLengthOk_iff.mp hk⟩
  | kept | stored | fatal | badLength | block => simp at hne

/-- Settles O42: a data write changes the array of its own region only, and no command writes `KEY` or `KOP`. -/
theorem keyAndOperandChangeByHostOnly : Obligations.KeyAndOperandChangeByHostOnly := by
  intro s t h hne
  replace h := engineStep_of_step h
  generalize t.toEngine = e at h hne ⊢
  cases h with
  | reset hs => exact .inl ⟨_, hs⟩
  | @stored off v rest row hs hf hrow _ =>
    refine .inr ⟨off, v, rest, hs, hf, ?_⟩
    by_cases hkey : row.region = .key
    · have kept := writeRegion_kop_of_ne (r := row.region) (by simp [hkey]) s.toEngine (off - row.first) v
      exact .inl ⟨hne.resolve_right (not_not_intro kept), kept,
        admittedRow_span (first := 0x040) (size := 32) hrow hkey (by decide)⟩
    · have kept := writeRegion_key_of_ne hkey s.toEngine (off - row.first) v
      have changed := hne.resolve_left (not_not_intro kept)
      have hkop : row.region = .kop := by
        by_contra hkop
        exact changed (writeRegion_kop_of_ne hkop ..)
      exact .inr ⟨changed, kept, admittedRow_span (first := 0x020) (size := 8) hrow hkop (by decide)⟩
  | kept | fatal | badLength | context | block => simp at hne

/-- `KEYX` does not write the slots. -/
@[simp] theorem readSlot_constructContext (d : Slot) (klen : Nat) (e : Engine) :
    readSlot d (constructContext klen e) = readSlot d e := by
  cases d with
  | b0 => exact constructContext_buf0 klen e
  | b1 => exact constructContext_buf1 klen e

/-- Settles O43: a data write changes the slot of its own region only, a block command its destination. -/
theorem slotChangesByWriteOrDestination : Obligations.SlotChangesByWriteOrDestination := by
  intro s t d h hne
  replace h := engineStep_of_step h
  generalize t.toEngine = e at h hne ⊢
  cases h with
  | reset hs => exact .inl ⟨_, hs⟩
  | @stored off v rest row hs hf hrow _ =>
    have hr : row.region = .buf d := by
      by_contra hr
      exact hne (readSlot_writeRegion_of_ne hr ..)
    refine .inr (.inl ⟨hf, off, v, rest, ?_⟩)
    cases d with
    | b0 => exact ⟨0x060, hs, rfl, admittedRow_span hrow hr (by decide)⟩
    | b1 => exact ⟨0x070, hs, rfl, admittedRow_span hrow hr (by decide)⟩
  | @block v i d' x ridx hw hd hi =>
    obtain ⟨hf, hv, rest, hs⟩ := hw
    have hdest : d = d' := by
      by_contra hdest
      exact hne (readSlot_completeBlock_of_ne hdest ..)
    subst hdest
    obtain ⟨ss, hi⟩ := hi
    refine .inr (.inr ⟨hf, completeBlock_err .., v, rest, ss, hs, hv, ?_⟩)
    rcases hi with rfl | rfl | rfl | rfl <;> simp [hd]
  | kept | fatal | badLength | context => simp at hne

/-- Settles O44: every effect that touches `ERR` or `FCAUSE` is that of a dispatched word, and only `Reset` clears `FCAUSE`. -/
theorem flagsChangeByCommandsOnly : Obligations.FlagsChangeByCommandsOnly := by
  intro s t h hreset
  replace h := engineStep_of_step h
  generalize t.toEngine = e at h ⊢
  cases h with
  | reset hs => exact absurd hs (hreset _)
  | fatal hw =>
    obtain ⟨hf, hv, rest, hs⟩ := hw
    exact ⟨fun hne => absurd rfl hne, fun _ => ⟨hf, _, rest, hs, hv⟩⟩
  | badLength hw hd _ | context hw hd _ | block hw hd _ =>
    obtain ⟨hf, hv, rest, hs⟩ := hw
    exact ⟨fun _ => ⟨hf, by simpa using hf, _, rest, _, hs, hv, hd⟩, fun hne => absurd (by simp) hne⟩
  | kept | stored => simp

/-! ### The frames of the commands (spec/10_state.md R34, spec/20_memory.md R52) -/

/-- The byte image outside `STATUS` is decided by the registers behind the regions that are read. -/
theorem byteAt_congr_of_registers {a b : Engine} {off : Nat} (hstatus : ¬(0x004 ≤ off ∧ off < 0x008))
    (hnr : 0x010 ≤ off ∧ off < 0x020 → a.nr = b.nr) (hkop : a.kop = b.kop) (hkey : a.key = b.key)
    (hbuf0 : 0x060 ≤ off ∧ off < 0x070 → a.buf0 = b.buf0) (hbuf1 : 0x070 ≤ off ∧ off < 0x080 → a.buf1 = b.buf1)
    (hrk : 0x100 ≤ off ∧ off < 0x210 → a.rk = b.rk) : byteAt a off = byteAt b off := by
  apply byteAt_congr
  intro row hmem h1 h2
  simp only [windowMap, List.mem_cons, List.not_mem_nil, or_false] at hmem
  rcases hmem with rfl | rfl | rfl | rfl | rfl | rfl | rfl | rfl | rfl
  · rfl
  · exact absurd ⟨h1, h2⟩ hstatus
  · rfl
  · simp only [regionByte, hnr ⟨h1, h2⟩]
  · simp only [regionByte, hkop]
  · simp only [regionByte, hkey]
  · simp only [regionByte, readSlot, hbuf0 ⟨h1, h2⟩]
  · simp only [regionByte, readSlot, hbuf1 ⟨h1, h2⟩]
  · simp only [regionByte, hrk ⟨h1, h2⟩]

/-- A fatal cause shows in `STATUS` alone. -/
theorem byteAt_raiseFatal (cause : FatalCause) (e : Engine) {off : Nat} (h : ¬(0x004 ≤ off ∧ off < 0x008)) :
    byteAt (raiseFatal cause e) off = byteAt e off :=
  byteAt_congr_of_registers h (fun _ => rfl) rfl rfl (fun _ => rfl) (fun _ => rfl) (fun _ => rfl)

/-- The recoverable error shows in `STATUS` alone. -/
theorem byteAt_raiseRecoverable (code : ErrCode) (e : Engine) {off : Nat} (h : ¬(0x004 ≤ off ∧ off < 0x008)) :
    byteAt (raiseRecoverable code e) off = byteAt e off :=
  byteAt_congr_of_registers h (fun _ => rfl) rfl rfl (fun _ => rfl) (fun _ => rfl) (fun _ => rfl)

/-- A completed block command shows in `STATUS` and its destination's region alone. -/
theorem byteAt_completeBlock {d : Slot} (x : Word × Word) (ridx : BitVec 6) (e : Engine) {off first : Nat}
    (hfirst : regionFirst (.buf d) = some first) (hs : ¬(0x004 ≤ off ∧ off < 0x008)) (hd : ¬(first ≤ off ∧ off < first + 16)) :
    byteAt (completeBlock d x ridx e) off = byteAt e off := by
  have hother : ∀ s, s ≠ d → readSlot s (completeBlock d x ridx e) = readSlot s e :=
    fun _ hne => readSlot_completeBlock_of_ne hne x ridx e
  have image := byteAt_congr_of_registers (a := completeBlock d x ridx e) (b := e) hs (fun _ => by simp) (by simp) (by simp)
  cases d with
  | b0 =>
    obtain rfl : 0x060 = first := Option.some.inj hfirst
    exact image (fun h => absurd h hd) (fun _ => hother .b1 (by decide)) (fun _ => by simp)
  | b1 =>
    obtain rfl : 0x070 = first := Option.some.inj hfirst
    exact image (fun _ => hother .b0 (by decide)) (fun h => absurd h hd) (fun _ => by simp)

/-- A new context shows in `STATUS`, `ALGNAME` and `RK` alone. -/
theorem byteAt_constructContext (klen : Nat) (e : Engine) {off : Nat} (hs : ¬(0x004 ≤ off ∧ off < 0x008))
    (hn : ¬(0x010 ≤ off ∧ off < 0x020)) (hr : ¬(0x100 ≤ off ∧ off < 0x210)) :
    byteAt (constructContext klen e) off = byteAt e off :=
  byteAt_congr_of_registers hs (fun h => absurd h hn) (constructContext_kop klen e) (constructContext_key klen e)
    (fun _ => constructContext_buf0 klen e) (fun _ => constructContext_buf1 klen e) (fun h => absurd h hr)

/-- Settles O23: discarded, a fatal cause, or the destination slot and the working words. -/
theorem blockCommandFrame : Obligations.BlockCommandFrame := by
  intro s t i ds ss dlen slen hi h
  rcases exec_cases h with ⟨_, rfl⟩ |
      ⟨_, ⟨klen, rfl, _⟩ | ⟨cause, rfl⟩ | ⟨klen, rfl, _⟩ | ⟨d, ss', x, ridx, hi', rfl⟩⟩
  · simp
  · simp at hi
  · refine ⟨rfl, rfl, rfl, rfl, fun d _ => readSlot_raiseFatal .., .inl rfl, fun _ => rfl, rfl, rfl, fun _ => rfl, rfl, rfl,
      fun _ _ off hs _ => byteAt_raiseFatal cause _ hs⟩
  · simp at hi
  · have hd : d = ds := by
      rcases hi with rfl | rfl | rfl | rfl <;> simp at hi' <;> simp [hi']
    have hridx : (i = .rndf ds dlen ss slen ∨ i = .rndi ds dlen ss slen) → ridx = s.seq.ridx := by
      rintro (rfl | rfl) <;> simp at hi' <;> simp [hi']
    subst hd
    refine ⟨by simp, by simp, by simp, by simp, fun _ hne => readSlot_completeBlock_of_ne hne .., .inr (by simp),
      fun hne => absurd (by simp) hne, by simp, by simp, fun h => by simpa using hridx h, rfl, rfl,
      fun first hfirst off hs hout => byteAt_completeBlock x ridx _ hfirst hs hout⟩

/-- Settles O24: discarded, `ERR` alone, or the new context. -/
theorem keyxFrame : Obligations.KeyxFrame := by
  intro s t klen h
  rcases runCommand_cases h with ⟨_, rfl⟩ | ⟨_, e, he, rfl⟩
  · simp
  rcases keyxBody_cases he with ⟨_, rfl⟩ | ⟨_, rfl⟩
  · exact ⟨rfl, rfl, rfl, rfl, rfl, rfl, rfl, rfl, fun _ => ⟨rfl, rfl⟩, fun off hs _ _ => byteAt_raiseRecoverable _ _ hs⟩
  · exact ⟨by simp, by simp, by simp, by simp, by simp, rfl, rfl, rfl, fun herr => by simp at herr,
      fun off hs hn hr => byteAt_constructContext klen _ hs hn hr⟩

/-! ### What the host reads of the state (spec/10_state.md R30, R32, R45) -/

/-- The bits of `STATUS`: each field shifted to its place (spec/10_state.md R30). -/
theorem statusWord_getLsbD (e : Engine) {i : Nat} (hi : i < 32) :
    (statusWord e).getLsbD i =
      (decide (16 ≤ i) && e.nr.getLsbD (i - 16) || (decide (8 ≤ i) && (fcauseBits e.fcause).getLsbD (i - 8)) ||
        (decide (4 ≤ i) && (errBits e.err).getLsbD (i - 4)) || (decide (i = 1) && fatalFlag e) ||
        (decide (i = 0) && validFlag e)) := by
  have h1 : i - 16 < 32 := by omega
  have h2 : i - 8 < 32 := by omega
  have h3 : i - 4 < 32 := by omega
  have h4 : i - 1 < 32 := by omega
  simp only [statusWord, BitVec.getLsbD_or, BitVec.getLsbD_shiftLeft, BitVec.getLsbD_setWidth, BitVec.getLsbD_ofBool,
    hi, h1, h2, h3, h4, decide_true, Bool.true_and, ← Nat.not_lt, decide_not]
  grind

/-- Bits 7:4 of `STATUS` are `ERR`. -/
theorem statusWord_err (e : Engine) : (statusWord e).extractLsb' 4 4 = errBits e.err := by
  rw [extract_eq_iff]
  intro i hi
  rw [statusWord_getLsbD e (by omega)]
  simp [show ¬ 16 ≤ 4 + i by omega, show ¬ 8 ≤ 4 + i by omega, show ¬ 4 + i = 1 by omega]

/-- Bits 11:8 of `STATUS` are `FCAUSE`. -/
theorem statusWord_fcause (e : Engine) : (statusWord e).extractLsb' 8 4 = fcauseBits e.fcause := by
  rw [extract_eq_iff]
  intro i hi
  rw [statusWord_getLsbD e (by omega), BitVec.getLsbD_of_ge (errBits e.err) _ (by omega)]
  simp [show ¬ 16 ≤ 8 + i by omega, show ¬ 8 + i = 1 by omega]

/-- Bits 21:16 of `STATUS` are `NR`. -/
theorem statusWord_nr (e : Engine) : (statusWord e).extractLsb' 16 6 = e.nr := by
  rw [extract_eq_iff]
  intro i hi
  rw [statusWord_getLsbD e (by omega), BitVec.getLsbD_of_ge (errBits e.err) _ (by omega),
    BitVec.getLsbD_of_ge (fcauseBits e.fcause) _ (by omega)]
  simp [show ¬ 16 + i = 1 by omega]

/-- Bits 3:2, 15:12 and 31:22 of `STATUS` are past the end of the field below them. -/
theorem statusWord_reserved (e : Engine) : (statusWord e).extractLsb' 2 2 = 0 ∧ (statusWord e).extractLsb' 12 4 = 0 ∧
    (statusWord e).extractLsb' 22 10 = 0 := by
  refine ⟨?_, ?_, ?_⟩ <;> rw [extract_eq_iff] <;> intro i hi <;> rw [statusWord_getLsbD e (by omega)]
  · simp [show ¬ 16 ≤ 2 + i by omega, show ¬ 8 ≤ 2 + i by omega, show ¬ 4 ≤ 2 + i by omega, show ¬ 2 + i = 1 by omega]
  · rw [BitVec.getLsbD_of_ge (errBits e.err) _ (by omega), BitVec.getLsbD_of_ge (fcauseBits e.fcause) _ (by omega)]
    simp [show ¬ 16 ≤ 12 + i by omega, show ¬ 12 + i = 1 by omega]
  · rw [BitVec.getLsbD_of_ge (errBits e.err) _ (by omega), BitVec.getLsbD_of_ge (fcauseBits e.fcause) _ (by omega),
      BitVec.getLsbD_of_ge e.nr _ (by omega)]
    simp [show ¬ 22 + i = 1 by omega]

/-- Settles O37: field by field, with the codes of R26 and R27. -/
theorem statusFields : Obligations.StatusFields := by
  intro e
  obtain ⟨h2, h12, h22⟩ := statusWord_reserved e
  refine ⟨?_, ?_, h2, ?_, ?_, h12, statusWord_nr e, h22⟩
  · rw [statusWord_getLsbD e (by decide)]
    simp [validFlag]
  · rw [statusWord_getLsbD e (by decide), ← fatalFlag_eq_true]
    simp
  · rw [statusWord_err]
    cases e.err <;> rfl
  · rw [statusWord_fcause]
    rcases e.fcause with _ | _ | _ | _ <;> rfl

/-! ### `ALGNAME` (spec/10_state.md R32) -/

/-- The byte image of `ALGNAME`. -/
theorem byteAt_algName (e : Engine) {off : Nat} (h1 : 0x010 ≤ off) (h2 : off < 0x020) :
    byteAt e off = (algorithmName e.nr).bind fun name => name[off - 0x010]? :=
  byteAt_of_row (row := { region := .algName, first := 0x010, size := 16, rights := [.read], widths := [1, 2, 4, 8] })
    (by decide) e h1 h2

/-- The name has a value for the legal round counts only. -/
theorem algorithmName_eq_none {e : Engine} (h : ¬ e.RoundCountLegal) : algorithmName e.nr = none := by
  obtain ⟨h0, h32, h33, h34⟩ : e.nr ≠ 0 ∧ e.nr ≠ 32 ∧ e.nr ≠ 33 ∧ e.nr ≠ 34 := by
    simpa [Engine.RoundCountLegal] using h
  rw [algorithmName, if_neg h0, if_neg h32, if_neg h33, if_neg h34]

/-- A read of at least one byte that starts where no byte has a value has none to deliver. -/
theorem readBytes_eq_none {e : Engine} {off n : Nat} (hn : 1 ≤ n) (h : byteAt e off = none) : readBytes e off n = none := by
  obtain ⟨m, rfl⟩ := Nat.exists_eq_add_of_le' hn
  simp [readBytes, h]

/-- A step whose host step is an admitted read. -/
theorem step_memRead {s : State} {off n : Nat} {rest : List HostStep} (hs : s.script = .memRead off n :: rest)
    (hv : verdict s.toEngine (.memRead off n) = .performed) : step s = performRead off n { s with script := rest } := by
  simp only [step, takeHostStep, hs, performHostStep, hv]

/-- A read that is performed is admitted, and so has a width of at least one byte. -/
theorem width_pos_of_performed {e : Engine} {off n : Nat} (hv : verdict e (.memRead off n) = .performed) : 1 ≤ n := by
  cases hrow : admittedRow .read off n with
  | none => simp [verdict, hrow] at hv
  | some row => exact admittedRow_width_pos hrow

/-- Settles O39: the name of each legal `NR`, and no value, so no read, for any other. -/
theorem algorithmNameByRoundCount : Obligations.AlgorithmNameByRoundCount := by
  refine ⟨fun e name h j hj => ?_, fun s off n rest hnr hs hv h1 h2 => ?_⟩
  · have hname : algorithmName e.nr = some name := by
      rcases h with ⟨h, rfl⟩ | ⟨h, rfl⟩ | ⟨h, rfl⟩ | ⟨h, rfl⟩ <;> rw [h] <;> rfl
    rw [byteAt_algName e (by omega) (by omega), hname, Nat.add_sub_cancel_left]
    rfl
  · have hbyte : byteAt s.toEngine off = none := by
      rw [byteAt_algName _ h1 h2, algorithmName_eq_none hnr]
      rfl
    have hread := readBytes_eq_none (width_pos_of_performed hv) hbyte
    rw [step_memRead hs hv]
    simp [performRead, hread]

/-! ### The round count past the file (log entry 7) -/

/-- `ENC` and `DEC` with right lengths and an `NR` past the file stop. -/
theorem withContext_pastFile {body : Engine → Engine} {e : Engine} (hn : 34 < e.nr.toNat) :
    withContext 16 16 body e = .fault .roundKeyPastFile := by
  have h0 : e.nr ≠ 0 := fun h0 => absurd hn (by rw [h0]; decide)
  rw [withContext, if_neg h0, if_neg (by decide), if_pos hn]

/-- A body that stops, as a command. -/
theorem runCommand_eq_fault {body : Engine → EngineResult} {s : State} {r : Fault} (h : s.fcause = none)
    (hb : body s.toEngine = .fault r) : runCommand body s = .fault r := by
  rw [runCommand_live h, onEngine, hb]

/-- Settles O48: both commands are `withContext` of their bodies. -/
theorem roundCountPastTheFileStops : Obligations.RoundCountPastTheFileStops :=
  fun _ _ _ hf hn =>
    ⟨runCommand_eq_fault hf (withContext_pastFile hn), runCommand_eq_fault hf (withContext_pastFile hn)⟩

/-! ### The reset state (spec/10_state.md R45) -/

/-- An entry of an all-zero array. -/
theorem eq_zero_of_replicate {w n j : Nat} {b : BitVec w} (h : (Vector.replicate n (0 : BitVec w))[j]? = some b) : b = 0 := by
  rw [Vector.getElem?_replicate] at h
  split at h
  · exact (Option.some.inj h).symm
  · cases h

/-- The bytes of the word 0 are 0. -/
theorem eq_zero_of_bytes64_zero {j : Nat} {b : Byte} (h : (bytes64 0)[j]? = some b) : b = 0 := by
  have zeros : ∀ x ∈ bytes64 0, x = 0 := by decide
  exact zeros b (List.mem_of_getElem? h)

/-- Every byte a region shows after reset is 0, but for the last one of `BLKSZ`. -/
theorem regionByte_reset {j : Nat} {r : Region} {b : Byte} (h : regionByte Engine.reset j r = some b) :
    b = if r = .blksz ∧ j = 3 then 0x10 else 0x00 := by
  cases r with
  | cmd => cases h
  | status =>
    have zeros : ∀ x ∈ bytes32 (statusWord Engine.reset), x = 0 := by decide
    simpa using zeros b (List.mem_of_getElem? h)
  | blksz =>
    have hj : j < 4 := (List.getElem?_eq_some_iff.mp h).1
    interval_cases j <;> cases h <;> rfl
  | algName =>
    have zeros : ∀ x ∈ List.replicate 16 (0 : Byte), x = 0 := fun _ => List.eq_of_mem_replicate
    simpa using zeros b (List.mem_of_getElem? (l := List.replicate 16 0) h)
  | kop => simpa using eq_zero_of_replicate h
  | key => simpa using eq_zero_of_replicate h
  | buf d => cases d <;> simpa using eq_zero_of_replicate h
  | rk =>
    obtain ⟨w, hw, hb⟩ := Option.bind_eq_some_iff.mp h
    obtain rfl := eq_zero_of_replicate hw
    simpa using eq_zero_of_bytes64_zero hb

/-- Settles O49: the arrays by `replicate`, the byte image region by region. -/
theorem resetStateIsZero : Obligations.ResetStateIsZero := by
  refine ⟨?_, ?_, ?_, ?_, ?_, rfl, rfl, rfl, rfl, rfl, rfl, ?_, rfl, rfl, fun off b h => ?_⟩
  iterate 6 exact fun i => Vector.getElem_replicate i.isLt
  rcases row_or_reserved off with ⟨row, hmem, h1, h2⟩ | hr
  · have last : (row.region = .blksz ∧ off - row.first = 3) = (off = 0x00B) := by
      simp only [windowMap, List.mem_cons, List.not_mem_nil, or_false] at hmem
      rcases hmem with rfl | rfl | rfl | rfl | rfl | rfl | rfl | rfl | rfl <;> simp at h1 h2 ⊢ <;> omega
    rw [byteAt_of_row hmem _ h1 h2] at h
    simpa only [last] using regionByte_reset h
  · rw [byteAt_of_reserved _ hr] at h
    cases h

/-! ### The codes of each outcome (spec/10_state.md R26, R27) -/

/-- The codes that `STATUS` shows after `KEYX` outside the fatal state. -/
theorem execKeyx_codes {s : State} {klen : Nat} (hf : s.fcause = none) :
    ∃ t, execKeyx klen s = .next t ∧ (statusWord t.toEngine).extractLsb' 8 4 = 0#4 ∧
      (statusWord t.toEngine).extractLsb' 4 4 = if klen = 16 ∨ klen = 24 ∨ klen = 32 then 0#4 else 1#4 := by
  simp only [← keyLengthOk_iff, statusWord_fcause, statusWord_err]
  by_cases hk : keyLengthOk klen = true
  · refine ⟨_, execKeyx_complete hf hk, ?_, ?_⟩
    · rw [constructContext_fcause, hf]; rfl
    · rw [if_pos hk, constructContext_err]; rfl
  · refine ⟨_, runCommand_eq_next hf (if_pos (by simpa using hk)), ?_, ?_⟩
    · rw [raiseRecoverable_fcause, hf]; rfl
    · rw [if_neg hk]; rfl

/-- A body that ends as every block command does. -/
def CompletesBlock (body : Engine → Engine) : Prop := ∀ e, ∃ d x ridx, body e = completeBlock d x ridx e

/-- The codes after a body that completes: `FCAUSE` is kept and `ERR` is 0. -/
theorem CompletesBlock.codes {body : Engine → Engine} (hbody : CompletesBlock body) {e : Engine} (hf : e.fcause = none) :
    fcauseBits (body e).fcause = 0#4 ∧ errBits (body e).err = 0#4 := by
  obtain ⟨d, x, ridx, he⟩ := hbody e
  rw [he, completeBlock_fcause, completeBlock_err, hf]
  exact ⟨rfl, rfl⟩

section
variable {body : Engine → Engine} (hbody : CompletesBlock body) {s : State} {dlen slen : Nat} (hf : s.fcause = none)
include hbody hf

/-- The codes that `STATUS` shows after `ENC` and `DEC` outside the fatal state, by their body. -/
theorem withContext_codes (hn : s.nr.toNat ≤ 34) :
    ∃ t, runCommand (withContext dlen slen body) s = .next t ∧
      (statusWord t.toEngine).extractLsb' 8 4 = (if s.nr = 0 then 2#4 else if slen = 16 ∧ dlen = 16 then 0#4 else 3#4) ∧
      (statusWord t.toEngine).extractLsb' 4 4 =
        if s.nr ≠ 0 ∧ slen = 16 ∧ dlen = 16 then 0#4 else (statusWord s.toEngine).extractLsb' 4 4 := by
  simp only [← bufferLengthsOk_iff, statusWord_fcause, statusWord_err]
  by_cases h0 : s.nr = 0
  · refine ⟨_, runCommand_eq_next hf (if_pos h0), ?_, ?_⟩
    · rw [if_pos h0]; rfl
    · rw [if_neg fun h => h.1 h0]; rfl
  by_cases hl : bufferLengthsOk dlen slen = true
  · obtain ⟨hfc, herr⟩ := hbody.codes hf
    refine ⟨_, runCommand_eq_next hf (withContext_complete h0 hl hn), ?_, ?_⟩
    · rw [if_neg h0, if_pos hl, hfc]
    · rw [if_pos ⟨h0, hl⟩, herr]
  · have hnext : withContext dlen slen body s.toEngine = .next (raiseFatal .buflen s.toEngine) := by
      rw [withContext, if_neg h0, if_pos (by simpa using hl)]
    refine ⟨_, runCommand_eq_next hf hnext, ?_, ?_⟩
    · rw [if_neg h0, if_neg hl]; rfl
    · rw [if_neg fun h => hl h.2]; rfl

/-- The codes that `STATUS` shows after `RNDF` and `RNDI` outside the fatal state, by their body. -/
theorem withBuffers_codes :
    ∃ t, runCommand (withBuffers dlen slen body) s = .next t ∧
      (statusWord t.toEngine).extractLsb' 8 4 = (if slen = 16 ∧ dlen = 16 then 0#4 else 3#4) ∧
      (statusWord t.toEngine).extractLsb' 4 4 =
        if slen = 16 ∧ dlen = 16 then 0#4 else (statusWord s.toEngine).extractLsb' 4 4 := by
  simp only [← bufferLengthsOk_iff, statusWord_fcause, statusWord_err]
  by_cases hl : bufferLengthsOk dlen slen = true
  · obtain ⟨hfc, herr⟩ := hbody.codes hf
    refine ⟨_, runCommand_eq_next hf (if_neg (by simp [hl])), ?_, ?_⟩
    · rw [if_pos hl, hfc]
    · rw [if_pos hl, herr]
  · refine ⟨_, runCommand_eq_next hf (if_pos (by simpa using hl)), ?_, ?_⟩
    · rw [if_neg hl]; rfl
    · rw [if_neg hl]; rfl

end

/-- A step whose host step is a 4-byte write to `CMD` outside the fatal state dispatches its word. -/
theorem step_dispatch {s : State} {v : List Byte} {rest : List HostStep} (hs : s.script = .memWrite 0x000 v :: rest)
    (hv : v.length = 4) (hf : s.fcause = none) :
    step s = dispatchWord exec (be32 v) { s with script := rest, answer := .done } := by
  have hrow : admittedRow .write 0x000 v.length =
      some { region := .cmd, first := 0x000, size := 4, rights := [.write], widths := [4] } := by
    rw [hv]; decide
  have hverdict : verdict s.toEngine (.memWrite 0x000 v) = .performed := by
    simp [verdict, hrow, fatalFlag_eq_false.mpr hf]
  simp only [step, takeHostStep, hs, performHostStep, hverdict, performWrite, hrow, answering]

/-- Settles O57: each command's checks decide its codes, and an illegal word raises `ILLCMD`. -/
theorem statusCodesOfEachOutcome : Obligations.StatusCodesOfEachOutcome := by
  refine ⟨fun s klen hf => execKeyx_codes hf, fun s command ds ss dlen slen hf hc hn => ?_,
    fun s command ds ss dlen slen hf hc => ?_, fun s v rest why hs hv hf hd => ?_⟩
  · rcases hc with rfl | rfl
    · exact withContext_codes (body := encBody ds ss) (fun _ => ⟨_, _, _, rfl⟩) hf hn
    · exact withContext_codes (body := decBody ds ss) (fun _ => ⟨_, _, _, rfl⟩) hf hn
  · rcases hc with rfl | rfl
    · exact withBuffers_codes (body := rndfBody ds ss) (fun _ => ⟨_, _, _, rfl⟩) hf
    · exact withBuffers_codes (body := rndiBody ds ss) (fun _ => ⟨_, _, _, rfl⟩) hf
  · refine ⟨_, (step_dispatch hs hv hf).trans (dispatchWord_illegal hf hd), ?_, ?_⟩
    · rw [statusWord_fcause]; rfl
    · rw [statusWord_err, statusWord_err]; rfl

end Sys2Proof.Machine
end

section
/-!
PROOFS. The register window of spec/20_memory.md: which accesses are admitted (R51, R55 to R57), the byte image (R52), what a read
delivers (R55), what a data write stores (R54, R56), and the callers of `ENC` and `DEC` (R65, R66).
-/

namespace Sys2Proof.Machine

/-! ### Admission (spec/20_memory.md R55, R56, R58) -/

/-- The row an access is admitted in is the one that meets every condition of R55: a map without overlaps has no other. -/
theorem admittedRow_eq_some_iff {right : Right} {off n : Nat} {row : MapRow} :
    admittedRow right off n = some row ↔
      n ∈ Config.accessWidths ∧ off % n = 0 ∧ off + n ≤ Config.windowSize ∧ row ∈ windowMap ∧
        row.first ≤ off ∧ off + n ≤ row.first + row.size ∧ right ∈ row.rights ∧ n ∈ row.widths := by
  refine ⟨admittedRow_cases, fun ⟨hwidth, haligned, hinside, hmem, hfirst, hlast, hright, hn⟩ => ?_⟩
  have hpos : 1 ≤ n := by
    have positive : ∀ w ∈ Config.accessWidths, 1 ≤ w := by decide
    exact positive n hwidth
  have hsome : (admittedRow right off n).isSome := by
    rw [admittedRow, if_pos ⟨hwidth, haligned, hinside⟩, List.find?_isSome]
    refine ⟨row, hmem, ?_⟩
    simp only [Bool.and_eq_true, List.contains_iff_mem, MapRow.holds_iff]
    exact ⟨⟨⟨hfirst, hlast⟩, hright⟩, hn⟩
  obtain ⟨other, hother⟩ := Option.isSome_iff_exists.mp hsome
  obtain ⟨_, _, _, hmem', hfirst', hlast', _, _⟩ := admittedRow_cases hother
  have same : some other = some row :=
    (find_row_of_holds hmem' hfirst' (by omega)).symm.trans (find_row_of_holds hmem hfirst (by omega))
  rw [hother, same]

/-- An access is admitted when some row of the map meets every condition. -/
theorem admittedRow_isSome_iff {right : Right} {off n : Nat} :
    (admittedRow right off n).isSome ↔
      n ∈ Config.accessWidths ∧ off % n = 0 ∧ off + n ≤ Config.windowSize ∧ ∃ row ∈ windowMap,
        row.first ≤ off ∧ off + n ≤ row.first + row.size ∧ right ∈ row.rights ∧ n ∈ row.widths := by
  simp only [Option.isSome_iff_exists, admittedRow_eq_some_iff, exists_and_left]

/-- The admitted reads, from the rows that have the read right. -/
theorem admittedRow_read_isSome_iff {off n : Nat} :
    (admittedRow .read off n).isSome ↔
      (n = 4 ∧ (off = 0x004 ∨ off = 0x008)) ∨
       ((n = 1 ∨ n = 2 ∨ n = 4 ∨ n = 8) ∧ off % n = 0 ∧
        ((0x010 ≤ off ∧ off + n ≤ 0x020) ∨ (0x020 ≤ off ∧ off + n ≤ 0x028) ∨ (0x040 ≤ off ∧ off + n ≤ 0x060) ∨
         (0x060 ≤ off ∧ off + n ≤ 0x070) ∨ (0x070 ≤ off ∧ off + n ≤ 0x080) ∨ (0x100 ≤ off ∧ off + n ≤ 0x210))) := by
  rw [admittedRow_isSome_iff]
  by_cases hn : n = 1 ∨ n = 2 ∨ n = 4 ∨ n = 8
  · rcases hn with rfl | rfl | rfl | rfl <;> simp [windowMap, Config.windowSize] <;> omega
  · obtain ⟨h1, h2, h4, h8⟩ : n ≠ 1 ∧ n ≠ 2 ∧ n ≠ 4 ∧ n ≠ 8 := by simpa using hn
    simp [h1, h2, h4, h8]

/-- The admitted writes, from the rows that have the write right. -/
theorem admittedRow_write_isSome_iff {off n : Nat} :
    (admittedRow .write off n).isSome ↔
      (n = 4 ∧ off = 0x000) ∨
       ((n = 1 ∨ n = 2 ∨ n = 4 ∨ n = 8) ∧ off % n = 0 ∧
        ((0x020 ≤ off ∧ off + n ≤ 0x028) ∨ (0x040 ≤ off ∧ off + n ≤ 0x060) ∨
         (0x060 ≤ off ∧ off + n ≤ 0x070) ∨ (0x070 ≤ off ∧ off + n ≤ 0x080))) := by
  rw [admittedRow_isSome_iff]
  by_cases hn : n = 1 ∨ n = 2 ∨ n = 4 ∨ n = 8
  · rcases hn with rfl | rfl | rfl | rfl <;> simp [windowMap, Config.windowSize] <;> omega
  · obtain ⟨h1, h2, h4, h8⟩ : n ≠ 1 ∧ n ≠ 2 ∧ n ≠ 4 ∧ n ≠ 8 := by simpa using hn
    simp [h1, h2, h4, h8]

/-! ### The outcomes of a host step (spec/60_exceptions.md R177) -/

/-- A read is performed when it is admitted, in the fatal state too. -/
theorem verdict_memRead_performed_iff {e : Engine} {off n : Nat} :
    verdict e (.memRead off n) = .performed ↔ (admittedRow .read off n).isSome := by
  cases hrow : admittedRow .read off n <;> simp [verdict, hrow]

/-- A read is refused when it is not admitted. -/
theorem verdict_memRead_refused_iff {e : Engine} {off n : Nat} :
    verdict e (.memRead off n) = .refused ↔ ¬ (admittedRow .read off n).isSome := by
  cases hrow : admittedRow .read off n <;> simp [verdict, hrow]

/-- A write is refused when it is not admitted, in the fatal state too. -/
theorem verdict_memWrite_ne_refused_iff {e : Engine} {off : Nat} {v : List Byte} :
    verdict e (.memWrite off v) ≠ .refused ↔ (admittedRow .write off v.length).isSome := by
  cases hrow : admittedRow .write off v.length with
  | none => simp [verdict, hrow]
  | some row => cases hfatal : fatalFlag e <;> simp [verdict, hrow, hfatal]

/-- The fatal state discards an admitted write. -/
theorem verdict_memWrite_discarded_iff {e : Engine} {off : Nat} {v : List Byte} (h : (admittedRow .write off v.length).isSome) :
    verdict e (.memWrite off v) = .discarded ↔ e.fcause ≠ none := by
  rw [← fatalFlag_eq_true]
  simp [verdict, Option.isSome_iff_ne_none.mp h]

/-- A write is performed when it is admitted and the engine is not in the fatal state. -/
theorem verdict_memWrite_performed_iff {e : Engine} {off : Nat} {v : List Byte} :
    verdict e (.memWrite off v) = .performed ↔ (admittedRow .write off v.length).isSome ∧ e.fcause = none := by
  rw [← fatalFlag_eq_false]
  cases hrow : admittedRow .write off v.length with
  | none => simp [verdict, hrow]
  | some row => cases hfatal : fatalFlag e <;> simp [verdict, hrow, hfatal]

/-- Settles O31: a read has two outcomes, by its admission alone. -/
theorem admittedReadsExactly : Obligations.AdmittedReadsExactly := by
  intro e off n
  rw [verdict_memRead_performed_iff, verdict_memRead_refused_iff, ← admittedRow_read_isSome_iff, and_self, and_self]
  exact em _

/-- Settles O32: admission decides the refusal, the fatal state the rest. -/
theorem admittedWritesExactly : Obligations.AdmittedWritesExactly := by
  intro e off v
  rw [verdict_memWrite_ne_refused_iff]
  exact ⟨admittedRow_write_isSome_iff, verdict_memWrite_discarded_iff⟩

/-- A step performs the host step that waits first. -/
theorem step_of_script {s : State} {h : HostStep} {rest : List HostStep} (hs : s.script = h :: rest) :
    step s = performHostStep exec h { s with script := rest } := by
  simp only [step, takeHostStep, hs]

/-- Settles O33: the verdict alone decides what a refused access does. -/
theorem refusedAccessChangesNothing : Obligations.RefusedAccessChangesNothing := by
  intro s h rest hs hv
  simp only [step_of_script hs, performHostStep, hv, answering]

/-! ### The byte image (spec/20_memory.md R52) -/

/-- Byte `j` of a region, at its offset in the window. -/
theorem byteAt_region {r : Region} {first size j : Nat}
    (hspan : ∃ x ∈ windowMap, x.region = r ∧ x.first = first ∧ x.size = size) (e : Engine) (hj : j < size) :
    byteAt e (first + j) = regionByte e j r := by
  obtain ⟨row, hmem, rfl, rfl, rfl⟩ := hspan
  rw [byteAt_of_row hmem e (Nat.le_add_right ..) (Nat.add_lt_add_left hj _), Nat.add_sub_cancel_left]

/-- Byte `j` of round key `i` in the region `RK`. -/
theorem regionByte_rk (e : Engine) {i j : Nat} (hi : i < 34) (hj : j < 8) :
    regionByte e (8 * i + j) .rk = (bytes64 e.rk[i])[j]? := by
  have hdiv : (8 * i + j) / 8 = i := by omega
  have hmod : (8 * i + j) % 8 = j := by omega
  simp [regionByte, hdiv, hmod, hi]

/-- Settles O40: each region in its row of the map. -/
theorem byteImage : Obligations.ByteImage := by
  intro e
  refine ⟨fun j hj => ?_, fun j hj => ?_, fun name hname j hj => ?_, fun j hj => ?_, fun j hj => ?_, fun j hj => ?_,
    fun j hj => ?_, fun i j hi hj => ⟨e.rk[i], Vector.getElem?_eq_getElem hi, ?_⟩⟩
  · exact byteAt_region (r := .status) (by decide) e hj
  · exact byteAt_region (r := .blksz) (by decide) e hj
  · rw [byteAt_region (r := .algName) (size := 16) (by decide) e hj, regionByte, hname]
    rfl
  · exact byteAt_region (r := .kop) (by decide) e hj
  · exact byteAt_region (r := .key) (by decide) e hj
  · exact byteAt_region (r := .buf .b0) (by decide) e hj
  · exact byteAt_region (r := .buf .b1) (by decide) e hj
  · rw [Nat.add_assoc, byteAt_region (r := .rk) (size := 272) (by decide) e (by omega), regionByte_rk e hi hj]

/-! ### Reads (spec/20_memory.md R55) -/

/-- A legal round count has a name of sixteen bytes (spec/10_state.md R32). -/
theorem algorithmName_of_legal {e : Engine} (h : e.RoundCountLegal) :
    ∃ name, algorithmName e.nr = some name ∧ name.length = 16 := by
  rcases h with h | h | h | h <;> rw [h] <;> exact ⟨_, rfl, rfl⟩

/-- Every byte of a readable region has a value, `ALGNAME` with a legal round count. -/
theorem regionByte_isSome {e : Engine} (hnr : e.RoundCountLegal) {row : MapRow} (hmem : row ∈ windowMap)
    (hread : Right.read ∈ row.rights) {j : Nat} (hj : j < row.size) : (regionByte e j row.region).isSome := by
  obtain ⟨name, hname, hlength⟩ := algorithmName_of_legal hnr
  simp only [windowMap, List.mem_cons, List.not_mem_nil, or_false] at hmem
  rcases hmem with rfl | rfl | rfl | rfl | rfl | rfl | rfl | rfl | rfl <;> simp only [regionByte] at hj ⊢
  · simp at hread
  · simp [hj]
  · simp [hj]
  · simp [hname, hlength, hj]
  · simp [hj]
  · simp [hj]
  · simp [hj]
  · simp [hj]
  · have hrow : j / 8 < 34 := by omega
    have hcol : j % 8 < 8 := by omega
    simp [hrow, hcol]

/-- An admitted read finds a byte at each of its offsets. -/
theorem readBytes_isSome_of_admitted {e : Engine} (hnr : e.RoundCountLegal) {off n : Nat}
    (h : (admittedRow .read off n).isSome) : (readBytes e off n).isSome := by
  obtain ⟨row, hrow⟩ := Option.isSome_iff_exists.mp h
  obtain ⟨_, _, _, hmem, hfirst, hlast, hread, _⟩ := admittedRow_cases hrow
  refine readBytes_isSome fun j hj => ?_
  rw [byteAt_of_row hmem e (by omega) (by omega)]
  exact regionByte_isSome hnr hmem hread (by omega)

/-- Settles O34: the read has bytes to deliver, and they are the image's. -/
theorem admittedReadDeliversTheImage : Obligations.AdmittedReadDeliversTheImage := by
  intro s off n rest hs hv hnr
  obtain ⟨bs, hbs⟩ :=
    Option.isSome_iff_exists.mp (readBytes_isSome_of_admitted hnr (verdict_memRead_performed_iff.mp hv))
  refine ⟨bs, ?_, readBytes_eq_some hbs⟩
  rw [step_memRead hs hv]
  simp [performRead, hbs, answering]

/-! ### Data writes (spec/20_memory.md R54, R56) -/

/-- The regions a host can store in: those with the write right, but for `CMD`. -/
def MapRow.IsStorage (row : MapRow) : Prop := row ∈ windowMap ∧ Right.write ∈ row.rights ∧ row.region ≠ .cmd

/-- The regions that store: `KOP`, `KEY` and the two slots. -/
theorem MapRow.IsStorage.cases {row : MapRow} (h : row.IsStorage) :
    (row.region = .kop ∧ row.size = 8) ∨ (row.region = .key ∧ row.size = 32) ∨
      (∃ d, row.region = .buf d ∧ row.size = 16) := by
  obtain ⟨hmem, hwrite, hcmd⟩ := h
  simp only [windowMap, List.mem_cons, List.not_mem_nil, or_false] at hmem
  rcases hmem with rfl | rfl | rfl | rfl | rfl | rfl | rfl | rfl | rfl <;> simp at hwrite hcmd ⊢

/-- A data write leaves `STATUS` as it was. -/
@[simp] theorem statusWord_writeRegion (e : Engine) (j : Nat) (bs : List Byte) (r : Region) :
    statusWord (writeRegion e j bs r) = statusWord e := by
  simp [statusWord, fatalFlag, validFlag]

/-- A data write leaves every other region's bytes as they were. -/
theorem regionByte_writeRegion_of_ne {r r' : Region} (h : r ≠ r') (e : Engine) (j : Nat) (bs : List Byte) (i : Nat) :
    regionByte (writeRegion e j bs r) i r' = regionByte e i r' := by
  cases r' with
  | cmd | blksz => rfl
  | status | algName | rk => simp [regionByte]
  | kop => simp only [regionByte, writeRegion_kop_of_ne h]
  | key => simp only [regionByte, writeRegion_key_of_ne h]
  | buf d => simp only [regionByte, readSlot_writeRegion_of_ne h]

/-- The bytes of its own region after a data write. -/
theorem regionByte_writeRegion_self {row : MapRow} (hrow : row.IsStorage) (e : Engine) (j : Nat) (bs : List Byte) {i : Nat}
    (hi : i < row.size) :
    regionByte (writeRegion e j bs row.region) i row.region =
      if j ≤ i ∧ i < j + bs.length then bs[i - j]? else regionByte e i row.region := by
  rcases hrow.cases with ⟨hr, hsize⟩ | ⟨hr, hsize⟩ | ⟨d, hr, hsize⟩ <;> rw [hsize] at hi <;> rw [hr]
  · exact storeSeq_getElem? e.kop j bs i hi
  · exact storeSeq_getElem? e.key j bs i hi
  · rw [regionByte, writeRegion, readSlot_writeSlot]
    exact storeSeq_getElem? (readSlot d e) j bs i hi

/-- The byte image after a data write: the sequence at its offsets, the old image elsewhere (spec/20_memory.md R56). -/
theorem byteAt_writeRegion {row : MapRow} (hrow : row.IsStorage) (e : Engine) {off : Nat} {v : List Byte}
    (hfirst : row.first ≤ off) (hlast : off + v.length ≤ row.first + row.size) (o : Nat) :
    byteAt (writeRegion e (off - row.first) v row.region) o =
      if off ≤ o ∧ o < off + v.length then v[o - off]? else byteAt e o := by
  by_cases hin : row.first ≤ o ∧ o < row.first + row.size
  · obtain ⟨h1, h2⟩ := hin
    have hiff : (off - row.first ≤ o - row.first ∧ o - row.first < off - row.first + v.length) =
        (off ≤ o ∧ o < off + v.length) := by
      rw [eq_iff_iff]; omega
    rw [byteAt_of_row hrow.1 _ h1 h2, byteAt_of_row hrow.1 _ h1 h2, regionByte_writeRegion_self hrow _ _ _ (by omega)]
    simp only [hiff, show o - row.first - (off - row.first) = o - off by omega]
  · rw [if_neg (by omega)]
    refine byteAt_congr fun row' hmem' h1 h2 => regionByte_writeRegion_of_ne (fun hr => hin ?_) ..
    have unique : ∀ x ∈ windowMap, ∀ y ∈ windowMap, x.region = y.region → x = y := by decide
    rw [unique row hrow.1 row' hmem' hr]
    exact ⟨h1, h2⟩

/-- A data write of a sequence in two parts (spec/20_memory.md R54). -/
theorem writeRegion_append (e : Engine) (j : Nat) (a b : List Byte) (r : Region) :
    writeRegion e j (a ++ b) r = writeRegion (writeRegion e j a r) (j + a.length) b r := by
  cases r with
  | buf d => cases d <;> simp [writeRegion, writeSlot, readSlot, storeSeq_append]
  | kop | key => simp [writeRegion, storeSeq_append]
  | _ => rfl

/-- An admitted write at another offset than that of `CMD` is one to a storage region. -/
theorem isStorage_of_admitted {off n : Nat} {row : MapRow} (hrow : admittedRow .write off n = some row) (hoff : off ≠ 0x000) :
    row.IsStorage := by
  obtain ⟨_, _, _, hmem, _, _, hwrite, _⟩ := admittedRow_cases hrow
  exact ⟨hmem, hwrite, fun hcmd => hoff (admittedRow_cmd hrow hcmd).1⟩

/-- A step whose host step is an admitted write to a storage region stores the bytes there. -/
theorem step_dataWrite {s : State} {off : Nat} {v : List Byte} {rest : List HostStep} {row : MapRow}
    (hs : s.script = .memWrite off v :: rest) (hf : s.fcause = none) (hrow : admittedRow .write off v.length = some row)
    (hoff : off ≠ 0x000) :
    step s = .next { toEngine := writeRegion s.toEngine (off - row.first) v row.region, script := rest, answer := .done } := by
  have hv : verdict s.toEngine (.memWrite off v) = .performed :=
    verdict_memWrite_performed_iff.mpr ⟨Option.isSome_of_eq_some hrow, hf⟩
  obtain ⟨_, _, hcmd⟩ := isStorage_of_admitted hrow hoff
  simp only [step_of_script hs, performHostStep, hv, performWrite, hrow, answering]

/-- Settles O35: the write is admitted in one storage row, and what it stores there is all it changes. -/
theorem dataWriteStoresItsBytes : Obligations.DataWriteStoresItsBytes := by
  intro s off v rest hs hv hoff
  obtain ⟨hsome, hf⟩ := verdict_memWrite_performed_iff.mp hv
  obtain ⟨row, hrow⟩ := Option.isSome_iff_exists.mp hsome
  obtain ⟨_, _, _, _, hfirst, hlast, _, _⟩ := admittedRow_cases hrow
  have image := byteAt_writeRegion (isStorage_of_admitted hrow hoff) s.toEngine hfirst hlast
  refine ⟨_, step_dataWrite hs hf hrow hoff, rfl, rfl, fun j hj => ?_, fun o ho => ?_, writeRegion_rk .., writeRegion_nr ..,
    writeRegion_err .., writeRegion_fcause .., writeRegion_seq ..⟩
  · rw [image, if_pos (by omega), Nat.add_sub_cancel_left]
  · rw [image, if_neg ho]

/-- The two halves of an admitted write are admitted in the same storage row. -/
theorem admittedRow_halves {off n : Nat} {row : MapRow} (hrow : admittedRow .write off (n + n) = some row) (hoff : off ≠ 0x000) :
    admittedRow .write off n = some row ∧ admittedRow .write (off + n) n = some row := by
  obtain ⟨hwidth, haligned, hinside, hmem, hfirst, hlast, hwrite, _⟩ := admittedRow_cases hrow
  have hn : n = 1 ∨ n = 2 ∨ n = 4 := by
    simp only [Config.accessWidths, List.mem_cons, List.not_mem_nil, or_false] at hwidth
    omega
  have hhalf : n ∈ Config.accessWidths := by rcases hn with rfl | rfl | rfl <;> decide
  have hrowWidth : n ∈ row.widths := by
    have allWidths : ∀ r ∈ windowMap, Right.write ∈ r.rights → r.region ≠ .cmd →
        r.widths = Config.accessWidths := by decide
    obtain ⟨_, _, hcmd⟩ := isStorage_of_admitted hrow hoff
    rw [allWidths row hmem hwrite hcmd]
    exact hhalf
  have halfAligned : off % n = 0 ∧ (off + n) % n = 0 := by rcases hn with rfl | rfl | rfl <;> omega
  constructor <;> rw [admittedRow_eq_some_iff]
  · exact ⟨hhalf, halfAligned.1, by omega, hmem, hfirst, by omega, hwrite, hrowWidth⟩
  · exact ⟨hhalf, halfAligned.2, by omega, hmem, by omega, by omega, hwrite, hrowWidth⟩

/-- Settles O36: the halves are admitted where the whole is, and a store in two parts is the store of the whole. -/
theorem writeWidthIsIrrelevant : Obligations.WriteWidthIsIrrelevant := by
  intro s off a b _ hlength hoff hv
  obtain ⟨hsome, hf⟩ := verdict_memWrite_performed_iff.mp hv
  obtain ⟨row, hrow⟩ := Option.isSome_iff_exists.mp hsome
  obtain ⟨hleft, hright⟩ := admittedRow_halves (n := a.length) (by simpa [← hlength] using hrow) hoff
  obtain ⟨_, _, _, _, hfirst, _, _, _⟩ := admittedRow_cases hrow
  refine ⟨_, _, _, step_dataWrite rfl hf hrow hoff, step_dataWrite rfl hf hleft hoff,
    step_dataWrite (row := row) rfl ?_ (hlength ▸ hright) (by omega), ?_⟩
  · rw [writeRegion_fcause]
    exact hf
  · rw [writeRegion_append, Nat.sub_add_comm hfirst]

/-! ### What `ENC` and `DEC` depend on (spec/20_memory.md R65) -/

section
variable (key : Vector Byte 32) (kop : Vector Byte 8)

theorem loadBlock_with_staging (d : Slot) (e : Engine) : loadBlock d { e with key := key, kop := kop } = loadBlock d e :=
  loadBlock_congr (by cases d <;> rfl)

theorem completeBlock_with_staging (d : Slot) (x : Word × Word) (ridx : BitVec 6) (e : Engine) :
    completeBlock d x ridx { e with key := key, kop := kop } = { completeBlock d x ridx e with key := key, kop := kop } := by
  cases d <;> rfl

theorem encBody_with_staging (ds ss : Slot) (e : Engine) :
    encBody ds ss { e with key := key, kop := kop } = { encBody ds ss e with key := key, kop := kop } := by
  rw [encBody, loadBlock_with_staging, completeBlock_with_staging]
  rfl

theorem decBody_with_staging (ds ss : Slot) (e : Engine) :
    decBody ds ss { e with key := key, kop := kop } = { decBody ds ss e with key := key, kop := kop } := by
  rw [decBody, loadBlock_with_staging, completeBlock_with_staging]
  rfl

/-- The checks of `ENC` and `DEC` read neither `KEY` nor `KOP`. -/
theorem withContext_with_staging {dlen slen : Nat} {body : Engine → Engine} {e e' : Engine}
    (hbody : body { e with key := key, kop := kop } = { body e with key := key, kop := kop })
    (h : withContext dlen slen body e = .next e') :
    withContext dlen slen body { e with key := key, kop := kop } = .next { e' with key := key, kop := kop } := by
  rcases withContext_cases h with ⟨hn, rfl⟩ | ⟨hn, hl, rfl⟩ | ⟨hn, hl, hd, rfl⟩
  · exact if_pos hn
  · exact (if_neg hn).trans (if_pos hl)
  · exact (withContext_complete (e := { e with key := key, kop := kop }) hn hl hd).trans (congrArg _ hbody)

/-- A command whose body keeps other bytes in `KEY` and `KOP` keeps them too. -/
theorem runCommand_with_staging {body : Engine → EngineResult} {s t : State}
    (hbody : ∀ e', body s.toEngine = .next e' →
      body { s.toEngine with key := key, kop := kop } = .next { e' with key := key, kop := kop })
    (h : runCommand body s = .next t) :
    runCommand body { s with key := key, kop := kop } = .next { t with key := key, kop := kop } := by
  rcases runCommand_cases h with ⟨hf, rfl⟩ | ⟨hf, e', he, rfl⟩
  · exact runCommand_fatal hf
  · exact runCommand_eq_next hf (hbody e' he)

end

/-- Settles O29: neither the checks nor the bodies read `KEY` or `KOP`. -/
theorem cipherIgnoresKeyAndOperand : Obligations.CipherIgnoresKeyAndOperand := by
  intro s t ds ss dlen slen key kop
  constructor
  · exact runCommand_with_staging key kop fun _ => withContext_with_staging key kop (encBody_with_staging key kop ds ss _)
  · exact runCommand_with_staging key kop fun _ => withContext_with_staging key kop (decBody_with_staging key kop ds ss _)

/-! ### Two callers, each on its own slot (spec/20_memory.md R66) -/

/-- `ENC` and `DEC` in place end as every block command does, with words that depend on the round keys and their slot alone. -/
theorem exec_cipher_inPlace {command : Slot → Nat → Slot → Nat → Instr} (h : command = Instr.enc ∨ command = Instr.dec) :
    ∃ (words : List Word → Word × Word → Word × Word) (last : BitVec 6 → BitVec 6), ∀ (s : State) (d : Slot),
      s.fcause = none → s.nr ≠ 0 → s.nr.toNat ≤ 34 → exec (command d 16 d 16) s =
        .next { s with
          toEngine := completeBlock d (words (contextKeys s.toEngine) (loadBlock d s.toEngine)) (last s.nr) s.toEngine } := by
  rcases h with rfl | rfl
  · exact ⟨encryptWords, id, fun _ _ => execEnc_complete⟩
  · exact ⟨decryptWords, fun _ => 0, fun _ _ => execDec_complete⟩

/-- A completed block command keeps the round keys of the context. -/
@[simp] theorem contextKeys_completeBlock (d : Slot) (x : Word × Word) (ridx : BitVec 6) (e : Engine) :
    contextKeys (completeBlock d x ridx e) = contextKeys e := by
  simp [contextKeys]

/-- A completed block command leaves the block of the other slot. -/
theorem loadBlock_completeBlock_of_ne {s d : Slot} (h : s ≠ d) (x : Word × Word) (ridx : BitVec 6) (e : Engine) :
    loadBlock s (completeBlock d x ridx e) = loadBlock s e :=
  loadBlock_congr (readSlot_completeBlock_of_ne h ..)

/-- Two completed block commands with different destinations: their order shows in the hidden registers alone. -/
theorem completeBlock_comm {a b : Slot} (hab : a ≠ b) (x y : Word × Word) (r r' : BitVec 6) (e : Engine) :
    (completeBlock b y r' (completeBlock a x r e)).VisiblyEqual (completeBlock a x r (completeBlock b y r' e)) := by
  cases a <;> cases b
  · exact absurd rfl hab
  · rfl
  · rfl
  · exact absurd rfl hab

/-- Settles O30: each command reads the round keys and its own slot, which the other leaves as they were. -/
theorem callersOnOwnSlotsCommute : Obligations.CallersOnOwnSlotsCommute := by
  intro s a b first second hf hn hd hab hfirst hsecond
  obtain ⟨words₁, last₁, exec₁⟩ := exec_cipher_inPlace hfirst
  obtain ⟨words₂, last₂, exec₂⟩ := exec_cipher_inPlace hsecond
  refine ⟨_, _, _, _, exec₁ s a hf hn hd, exec₂ _ b (by simpa) (by simpa) (by simpa), exec₂ s b hf hn hd,
    exec₁ _ a (by simpa) (by simpa) (by simpa), ?_⟩
  simp only [contextKeys_completeBlock, completeBlock_nr, loadBlock_completeBlock_of_ne hab,
    loadBlock_completeBlock_of_ne hab.symm]
  exact ⟨⟨completeBlock_comm hab .., rfl, rfl⟩, readSlot_completeBlock_of_ne hab ..,
    (readSlot_completeBlock_eq ..).trans (readSlot_completeBlock_eq ..).symm⟩

end Sys2Proof.Machine
end

section
/-!
PROOFS. Words and commands of spec/30_encoding.md: the opcode map (R85), decoding and encoding (R81, R88), the illegal words (R87),
and the dispatch of a command word (R80, R86).
-/

namespace Sys2Proof

open Machine

/-! ### Fields (spec/30_encoding.md R81) -/

/-- A slot's bit is clear for slot 0. -/
theorem slotOfBit_eq_b0_iff {b : Bool} : slotOfBit b = .b0 ↔ b = false := by
  cases b <;> decide

/-- `SS` is bit 8. -/
theorem fieldSS_eq_b0_iff {w : Word32} : fieldSS w = .b0 ↔ w.getLsbD 8 = false := slotOfBit_eq_b0_iff

/-- `DS` is bit 9. -/
theorem fieldDS_eq_b0_iff {w : Word32} : fieldDS w = .b0 ↔ w.getLsbD 9 = false := slotOfBit_eq_b0_iff

/-- `LENB` is the top byte. -/
theorem fieldLENB_eq_zero_iff {w : Word32} : fieldLENB w = 0 ↔ w.extractLsb' 24 8 = 0#8 :=
  (BitVec.toNat_inj (x := w.extractLsb' 24 8) (y := 0#8))

/-- The second byte of a word is 0 when `DS`, `SS` and `Z` are. -/
theorem secondByte_eq_zero_iff {w : Word32} :
    w.extractLsb' 8 8 = 0#8 ↔ w.extractLsb' 10 6 = 0#6 ∧ fieldDS w = .b0 ∧ fieldSS w = .b0 := by
  simp only [fieldSS_eq_b0_iff, fieldDS_eq_b0_iff, extract_eq_iff, Nat.forall_lt_succ_right, Nat.not_lt_zero, false_imp_iff,
    implies_true, true_and]
  simp
  tauto

/-- Format K has no slots and no second length: there `DS`, `LENB` and `SS` are 0. -/
def Op.UnusedZero (op : Op) (ds : Slot) (dlen : Nat) (ss : Slot) : Prop :=
  op = .keyx → ds = .b0 ∧ dlen = 0 ∧ ss = .b0

/-! ### The rows of the opcode map (spec/30_encoding.md R85) -/

/-- What the row of `op` asks of a word: its opcode, `Z = 0`, and 0 in the fields that its format does not use. -/
def Op.Matches (op : Op) (w : Word32) : Prop :=
  w.extractLsb' 0 8 = op.opcode ∧ w.extractLsb' 10 6 = 0#6 ∧ op.UnusedZero (fieldDS w) (fieldLENB w) (fieldSS w)

/-- A row's mask and pattern ask what `Op.Matches` says. -/
theorem OpcodeRow.selects_iff {row : OpcodeRow} (hrow : row ∈ opcodeMap) (w : Word32) :
    row.selects w = true ↔ row.op.Matches w := by
  have formatK := maskK_iff w 0x01
  have formatB (p : BitVec 8) := maskB_iff w p
  rw [secondByte_eq_zero_iff, ← fieldLENB_eq_zero_iff] at formatK
  simp only [opcodeMap, List.mem_cons, List.not_mem_nil, or_false] at hrow
  rcases hrow with rfl | rfl | rfl | rfl | rfl <;>
    simp only [OpcodeRow.selects, beq_iff_eq, Op.Matches, Op.UnusedZero, Op.opcode, forall_const, reduceCtorEq, false_imp_iff,
      and_true]
  · exact formatK.trans (by tauto)
  · exact formatB 0x02
  · exact formatB 0x03
  · exact formatB 0x04
  · exact formatB 0x05

/-- Settles O8: a selected row has the word's opcode, and no two rows have the same. -/
theorem atMostOneRowMatches : Obligations.AtMostOneRowMatches := by
  intro w a b ha hb haw hbw
  have opcodesDiffer : ∀ x ∈ opcodeMap, ∀ y ∈ opcodeMap, x.op.opcode = y.op.opcode → x = y := by decide
  obtain ⟨hopcA, _, _⟩ := (OpcodeRow.selects_iff ha w).mp haw
  obtain ⟨hopcB, _, _⟩ := (OpcodeRow.selects_iff hb w).mp hbw
  exact opcodesDiffer a ha b hb (hopcA.symm.trans hopcB)

/-- A word that meets what a row asks decodes by that row. -/
theorem Op.Matches.decode_eq {op : Op} {w : Word32} (h : op.Matches w) : decode w = .command (op.read w) := by
  obtain ⟨hopc, hz, hunused⟩ := h
  by_cases hop : op = .keyx
  · obtain ⟨hds, hlenb, hss⟩ := hunused hop
    subst hop
    exact decode_formatK hopc (secondByte_eq_zero_iff.mpr ⟨hz, hds, hss⟩) (fieldLENB_eq_zero_iff.mp hlenb)
  · exact decode_formatB hop hopc hz

/-- A word that decodes to a command meets what some row asks, and that row reads the command. -/
theorem decode_command_cases {w : Word32} {i : Instr} (h : decode w = .command i) :
    ∃ op : Op, op.Matches w ∧ i = op.read w := by
  unfold decode at h
  split at h
  · rename_i row hfind
    cases h
    have hsel := List.find?_some (p := fun r : OpcodeRow => r.selects w) hfind
    exact ⟨row.op, (OpcodeRow.selects_iff (List.mem_of_find?_eq_some hfind) w).mp hsel, rfl⟩
  · cases h

/-! ### Commands and their words (spec/30_encoding.md R88) -/

/-- The command of `op` with the given operands; format K has `slen` alone. -/
def Op.command (op : Op) (ds : Slot) (dlen : Nat) (ss : Slot) (slen : Nat) : Instr :=
  match op with
  | .keyx => .keyx slen
  | .enc => .enc ds dlen ss slen
  | .dec => .dec ds dlen ss slen
  | .rndf => .rndf ds dlen ss slen
  | .rndi => .rndi ds dlen ss slen

/-- A row reads its operands from the fields. -/
theorem Op.read_eq_command (op : Op) (w : Word32) :
    op.read w = op.command (fieldDS w) (fieldLENB w) (fieldSS w) (fieldLENA w) := by
  cases op <;> rfl

/-- Every command is one of a row, with 0 for what its format does not use. -/
theorem Instr.exists_eq_command (i : Instr) :
    ∃ (op : Op) (ds : Slot) (dlen : Nat) (ss : Slot) (slen : Nat),
      op.UnusedZero ds dlen ss ∧ i = op.command ds dlen ss slen := by
  cases i with
  | keyx klen => exact ⟨.keyx, .b0, 0, .b0, klen, fun _ => ⟨rfl, rfl, rfl⟩, rfl⟩
  | enc ds dlen ss slen => exact ⟨.enc, ds, dlen, ss, slen, nofun, rfl⟩
  | dec ds dlen ss slen => exact ⟨.dec, ds, dlen, ss, slen, nofun, rfl⟩
  | rndf ds dlen ss slen => exact ⟨.rndf, ds, dlen, ss, slen, nofun, rfl⟩
  | rndi ds dlen ss slen => exact ⟨.rndi, ds, dlen, ss, slen, nofun, rfl⟩

section
variable {op : Op} {ds ss : Slot} {dlen slen : Nat}

/-- A command is well-formed when both its lengths fit. -/
theorem Op.wf_command (h : op.UnusedZero ds dlen ss) :
    (op.command ds dlen ss slen).wf = (lengthFits dlen && lengthFits slen) := by
  cases op with
  | keyx => obtain ⟨_, rfl, _⟩ := h rfl; rfl
  | enc | dec | rndf | rndi => rfl

/-- Both formats place their operands alike. -/
theorem Op.encode_command (h : op.UnusedZero ds dlen ss) :
    encode (op.command ds dlen ss slen) = encodeB (op.opcode.setWidth 32) ds dlen ss slen := by
  cases op with
  | keyx => obtain ⟨rfl, rfl, rfl⟩ := h rfl; simp [Op.command, encode, encodeB, Slot.toNat, Op.opcode]
  | enc | dec | rndf | rndi => rfl

/-- The word of a command meets what its row asks. -/
theorem Op.encodeB_matches (h : op.UnusedZero ds dlen ss) (hd : lengthFits dlen = true) (hs : lengthFits slen = true) :
    op.Matches (encodeB (op.opcode.setWidth 32) ds dlen ss slen) := by
  refine ⟨encodeB_opc .., encodeB_z .., ?_⟩
  rwa [encodeB_ds, encodeB_lenb _ _ _ hd hs, encodeB_ss]

end

/-- Settles O6: the word of a command meets what its row asks, and each field holds the operand put there. -/
theorem encodeThenDecode : Obligations.EncodeThenDecode := by
  intro i hwf
  obtain ⟨op, ds, dlen, ss, slen, hunused, rfl⟩ := i.exists_eq_command
  rw [Op.wf_command hunused, Bool.and_eq_true] at hwf
  obtain ⟨hd, hs⟩ := hwf
  rw [Op.encode_command hunused, (Op.encodeB_matches hunused hd hs).decode_eq, Op.read_eq_command, encodeB_ds,
    encodeB_lenb _ _ _ hd hs, encodeB_ss, encodeB_lena _ _ _ _ hs]

/-- A field of 8 bits holds a length that fits. -/
theorem lengthFits_field (w : Word32) (k : Nat) : lengthFits (w.extractLsb' k 8).toNat = true :=
  decide_eq_true (w.extractLsb' k 8).isLt

/-- The bits of a slot number read from a bit. -/
theorem slotOfBit_testBit (b : Bool) (i : Nat) : (slotOfBit b).toNat.testBit i = (decide (i = 0) && b) := by
  cases b with
  | false => simp [slotOfBit, Slot.toNat]
  | true => cases i <;> simp [slotOfBit, Slot.toNat, Nat.testBit_succ]

/-- The fields of a word put back in their places are the word, when `Z` is 0: each bit lies in one field. -/
theorem encodeB_fields {w : Word32} (hz : w.extractLsb' 10 6 = 0#6) :
    encodeB ((w.extractLsb' 0 8).setWidth 32) (fieldDS w) (fieldLENB w) (fieldSS w) (fieldLENA w) = w := by
  have reservedBit {i : Nat} (h₁ : 10 ≤ i) (h₂ : i < 16) : w.getLsbD i = false := by
    simpa [show 10 + (i - 10) = i by omega] using (extract_eq_iff w 10 6 0).mp hz (i - 10) (by omega)
  apply BitVec.eq_of_getLsbD_eq
  intro i hi
  rw [encodeB_getLsbD]
  simp only [fieldDS, fieldSS, fieldLENB, fieldLENA, slotOfBit_testBit, BitVec.testBit_toNat, BitVec.getLsbD_extractLsb']
  obtain h | rfl | rfl | ⟨h₁, h₂⟩ | ⟨h₁, h₂⟩ | h :
      i < 8 ∨ i = 8 ∨ i = 9 ∨ (10 ≤ i ∧ i < 16) ∨ (16 ≤ i ∧ i < 24) ∨ 24 ≤ i := by omega
  · simp (disch := omega) [hi, h, decide_eq_false]
  · simp
  · simp
  · simpa (disch := omega) [decide_eq_false] using reservedBit h₁ h₂
  · simp (disch := omega) [hi, h₁, decide_eq_false, decide_eq_true]
  · simp (disch := omega) [hi, h, decide_eq_false, decide_eq_true]

/-- Settles O7: the row that reads the command puts every field back where it was read. -/
theorem decodeDeterminesWord : Obligations.DecodeDeterminesWord := by
  intro w i hd
  obtain ⟨op, ⟨hopc, hz, hunused⟩, rfl⟩ := decode_command_cases hd
  rw [Op.read_eq_command]
  constructor
  · rw [Op.wf_command hunused, fieldLENB, fieldLENA, lengthFits_field, lengthFits_field, Bool.and_self]
  · rw [Op.encode_command hunused, ← hopc, encodeB_fields hz]

/-! ### Illegal words (spec/30_encoding.md R87) -/

/-- A word is illegal when it meets what no row asks. -/
theorem decode_illegal_iff {w : Word32} : (∃ why, decode w = .illegal why) ↔ ¬∃ op : Op, op.Matches w := by
  constructor
  · rintro ⟨why, hd⟩ ⟨op, hmatch⟩
    rw [hmatch.decode_eq] at hd
    cases hd
  · intro hnone
    cases hd : decode w with
    | illegal why => exact ⟨why, rfl⟩
    | command i =>
      obtain ⟨op, hmatch, _⟩ := decode_command_cases hd
      exact absurd ⟨op, hmatch⟩ hnone

/-- The opcodes of the map are 1 to 5. -/
theorem exists_opcode_eq_iff {x : BitVec 8} : (∃ op : Op, op.opcode = x) ↔ 0x01#8 ≤ x ∧ x ≤ 0x05#8 := by
  constructor
  · rintro ⟨op, rfl⟩
    cases op <;> decide
  · intro hx
    obtain rfl | rfl | rfl | rfl | rfl : x = 0x01#8 ∨ x = 0x02#8 ∨ x = 0x03#8 ∨ x = 0x04#8 ∨ x = 0x05#8 := by bv_omega
    exacts [⟨.keyx, rfl⟩, ⟨.enc, rfl⟩, ⟨.dec, rfl⟩, ⟨.rndf, rfl⟩, ⟨.rndi, rfl⟩]

/-- Opcode 1 is that of `KEYX` alone. -/
theorem opcode_eq_one_iff {op : Op} : op.opcode = 0x01#8 ↔ op = .keyx := by
  cases op <;> decide

/-- The words of the map: an opcode of the map, `Z = 0`, and for opcode 1 also bit 8, bit 9 and the top byte 0. -/
theorem exists_matches_iff {w : Word32} :
    (∃ op : Op, op.Matches w) ↔
      (0x01#8 ≤ w.extractLsb' 0 8 ∧ w.extractLsb' 0 8 ≤ 0x05#8) ∧ w.extractLsb' 10 6 = 0#6 ∧
        (w.extractLsb' 0 8 = 0x01#8 →
          w.getLsbD 9 = false ∧ w.extractLsb' 24 8 = 0#8 ∧ w.getLsbD 8 = false) := by
  simp only [← exists_opcode_eq_iff, Op.Matches, Op.UnusedZero, fieldDS_eq_b0_iff, fieldLENB_eq_zero_iff, fieldSS_eq_b0_iff]
  constructor
  · rintro ⟨op, hopc, hz, hunused⟩
    exact ⟨⟨op, hopc.symm⟩, hz, fun hone => hunused (opcode_eq_one_iff.mp (hopc.symm.trans hone))⟩
  · rintro ⟨⟨op, hopc⟩, hz, hunused⟩
    exact ⟨op, hopc.symm, hz, fun hkeyx => hunused (hopc.symm.trans (opcode_eq_one_iff.mpr hkeyx))⟩

/-- Settles O9: an illegal word fails what the rows ask in one of three ways, and its dispatch raises `ILLCMD`. -/
theorem illegalWordsExactly : Obligations.IllegalWordsExactly := by
  refine ⟨fun w => ?_, fun s v rest why hs hv hf hd => ?_⟩
  · have outside (x : BitVec 8) : (x = 0x00#8 ∨ 0x06#8 ≤ x) ↔ ¬(0x01#8 ≤ x ∧ x ≤ 0x05#8) := by bv_omega
    have one (x : BitVec 8) : x = 0x01#8 → 0x01#8 ≤ x ∧ x ≤ 0x05#8 := by bv_omega
    rw [decode_illegal_iff, exists_matches_iff, outside]
    have := one (w.extractLsb' 0 8)
    simp only [← Bool.not_eq_true, ne_eq]
    tauto
  · exact ⟨_, (step_dispatch hs hv hf).trans (dispatchWord_illegal hf hd), rfl⟩

/-! ### The dispatch of a command word (spec/30_encoding.md R80, R86) -/

/-- A step whose host step is a write that the fatal state discards. -/
theorem step_discarded {s : State} {off : Nat} {v : List Byte} {rest : List HostStep} (hs : s.script = .memWrite off v :: rest)
    (hrow : (admittedRow .write off v.length).isSome) (hf : s.fcause ≠ none) :
    step s = .next { s with script := rest, answer := .done } := by
  simp only [step_of_script hs, performHostStep, (verdict_memWrite_discarded_iff hrow).mpr hf, answering]

/-- Settles O10: the fatal state discards the write; else the word is dispatched, and its decoding decides. -/
theorem stepRunsTheDecodedCommand : Obligations.StepRunsTheDecodedCommand := by
  intro s v rest hs hv
  refine ⟨step_discarded hs (by rw [hv]; rfl), fun hf i hd => ?_, fun hf why hd => ?_⟩
  · exact (step_dispatch hs hv hf).trans (dispatchWord_command hf hd)
  · exact (step_dispatch hs hv hf).trans (dispatchWord_illegal hf hd)

/-! ### Table words (spec/30_encoding.md R80; log entry 14) -/

/-- A table word is read as a command when its bytes decode to it. -/
theorem decodeTableWord_eq_some_iff {nbits w : Nat} {i : Instr} :
    decodeTableWord nbits w = some i ↔ decodeBytes (tableWordBytes nbits w) = .command i := by
  rw [decodeTableWord]
  cases decodeBytes (tableWordBytes nbits w) <;> simp

/-- A table word is read as no command when its bytes are illegal. -/
theorem decodeTableWord_eq_none_iff {nbits w : Nat} :
    decodeTableWord nbits w = none ↔ ∃ why, decodeBytes (tableWordBytes nbits w) = .illegal why := by
  rw [decodeTableWord]
  cases decodeBytes (tableWordBytes nbits w) <;> simp

/-- Settles O11: the placed word is a waiting 4-byte write to `CMD`. -/
theorem placedWordRunsNext : Obligations.PlacedWordRunsNext := by
  intro s nbits w i hf hd
  have hstep := step_dispatch (s := s.withFetchWord nbits w) rfl (bytes32_length _) hf
  exact hstep.trans (dispatchWord_command hf (decodeTableWord_eq_some_iff.mp hd))

/-! ### The worked encodings (spec/30_encoding.md R91) -/

/-- A 32-bit word is stored as its bytes. -/
theorem tableWordBytes_toNat (w : Word32) : tableWordBytes 32 w.toNat = bytes32 w := by
  rw [tableWordBytes, Nat.mod_eq_of_lt w.isLt, BitVec.ofNat_toNat, BitVec.setWidth_eq]

/-- A row of the table of worked encodings: a word, its bytes, and the command they decode to, none for an illegal word
(spec/30_encoding.md R91). -/
def WorkedRow (row : Word32 × List Byte × Option Instr) : Prop :=
  bytes32 row.1 = row.2.1 ∧
    match row.2.2 with
    | some i => decodeBytes row.2.1 = .command i ∧ encode i = row.1
    | none => ∃ why, decodeBytes row.2.1 = .illegal why

/-- A row holds when its bytes and its decoding do: a word that decodes is the word of its command. -/
theorem workedRow_of_decoding {row : Word32 × List Byte × Option Instr} (hbytes : bytes32 row.1 = row.2.1)
    (hd : decodeTableWord 32 row.1.toNat = row.2.2) : WorkedRow row := by
  obtain ⟨w, bs, expected⟩ := row
  obtain rfl : bytes32 w = bs := hbytes
  refine ⟨rfl, ?_⟩
  cases expected with
  | none => simpa [tableWordBytes_toNat] using decodeTableWord_eq_none_iff.mp hd
  | some i =>
    have hcommand : decodeBytes (bytes32 w) = .command i := by
      simpa [tableWordBytes_toNat] using decodeTableWord_eq_some_iff.mp hd
    have hword : decode w = .command i := by rwa [decodeBytes, be32_bytes32] at hcommand
    exact ⟨hcommand, (decodeDeterminesWord w i hword).2⟩

/-- A table of worked encodings holds when the model gives its bytes and its decodings. -/
theorem forall_workedRow {rows : List (Word32 × List Byte × Option Instr)}
    (h : ∀ row ∈ rows, bytes32 row.1 = row.2.1 ∧ decodeTableWord 32 row.1.toNat = row.2.2) : ∀ row ∈ rows, WorkedRow row :=
  fun row hrow => workedRow_of_decoding (h row hrow).1 (h row hrow).2

/-- Settles O5: the bytes and the decoding of each row, by running the model. -/
theorem workedEncodingsDecode : Obligations.WorkedEncodingsDecode :=
  forall_workedRow (by decide)

end Sys2Proof
end

section
/-!
PROOFS. The host scripts of spec/30_encoding.md R90: what each form spells, performed.
-/

namespace Sys2Proof.Machine

/-! ### Performing a script -/

/-- What performing a script of one more step says. -/
theorem performScript_cons_cases {h : HostStep} {hs : List HostStep} {s u : State} {bs : List Byte}
    (hp : performScript (h :: hs) s = some (bs, u)) :
    ∃ t first rest, step { s with script := h :: s.script } = .next t ∧ t.answer.bytes = some first ∧
      performScript hs t = some (rest, u) ∧ bs = first ++ rest := by
  rw [performScript] at hp
  split at hp
  · cases hp
  · cases hp
  · rename_i t ht
    split at hp
    · rename_i first rest w hfirst hrest
      cases hp
      exact ⟨t, first, rest, ht, hfirst, hrest, rfl⟩
    · cases hp

/-- Scripts performed one after the other. -/
theorem performScript_append {hs hs' : List HostStep} {s t u : State} {bs bs' : List Byte}
    (h : performScript hs s = some (bs, t)) (h' : performScript hs' t = some (bs', u)) :
    performScript (hs ++ hs') s = some (bs ++ bs', u) := by
  induction hs generalizing s bs with
  | nil => cases h; exact h'
  | cons x hs ih =>
    obtain ⟨r, first, rest, hstep, hfirst, hrest, rfl⟩ := performScript_cons_cases h
    rw [List.cons_append, List.append_assoc]
    exact performScript_cons hstep hfirst (ih hrest)

/-- A script of one step whose answer brings bytes. -/
theorem performScript_singleton {h : HostStep} {s t : State} {bs : List Byte}
    (hstep : step { s with script := h :: s.script } = .next t)
    (hbytes : t.answer.bytes = some bs) : performScript [h] s = some (bs, t) := by
  rw [performScript_cons hstep hbytes (performScript_nil t), List.append_nil]

/-! ### `RD`: scripts of reads -/

/-- Two reads in a row deliver what one read of both lengths does. -/
theorem readBytes_append {e : Engine} {off m n : Nat} {a b : List Byte} (ha : readBytes e off m = some a)
    (hb : readBytes e (off + m) n = some b) : readBytes e off (m + n) = some (a ++ b) := by
  induction m generalizing off a with
  | zero => cases ha; simpa using hb
  | succ m ih =>
    rw [readBytes] at ha
    split at ha
    · rename_i x xs hx hxs
      cases ha
      have := ih hxs (by rwa [Nat.add_assoc, Nat.add_comm 1])
      rw [Nat.add_right_comm, readBytes, hx, this]
      rfl
    · cases ha

/-- A read delivers a sequence that is the image at its offsets. -/
theorem readBytes_of_byteAt {e : Engine} {off : Nat} {bs : List Byte} (h : ∀ j, j < bs.length → byteAt e (off + j) = bs[j]?) :
    readBytes e off bs.length = some bs := by
  have hsome : (readBytes e off bs.length).isSome := readBytes_isSome fun j hj => by rw [h j hj]; simpa using hj
  obtain ⟨got, hgot⟩ := Option.isSome_iff_exists.mp hsome
  obtain ⟨hlength, himage⟩ := readBytes_eq_some hgot
  rw [hgot, Option.some_inj]
  refine List.ext_getElem? fun j => ?_
  by_cases hj : j < bs.length
  · rw [← himage j hj, h j hj]
  · rw [List.getElem?_eq_none (by omega), List.getElem?_eq_none (by omega)]

/-- A script of one admitted read returns the bytes of the image. -/
theorem performScript_memRead {s : State} {off n : Nat} {bs : List Byte} (hrow : (admittedRow .read off n).isSome)
    (hbs : readBytes s.toEngine off n = some bs) :
    performScript [.memRead off n] s = some (bs, { s with answer := .data bs }) := by
  refine performScript_singleton ((step_memRead rfl (verdict_memRead_performed_iff.mpr hrow)).trans ?_) rfl
  simp [performRead, hbs, answering]

/-- `k` reads of a row's script width, from its first offset on, return the image's bytes and keep the engine. -/
theorem performScript_reads {row : MapRow} (hmem : row ∈ windowMap) (hread : Right.read ∈ row.rights) {s : State}
    (hnr : s.toEngine.RoundCountLegal) {k : Nat} (hk : row.scriptWidth * k ≤ row.size) :
    ∃ bs u, performScript ((List.range k).map fun j => .memRead (row.first + row.scriptWidth * j) row.scriptWidth) s =
        some (bs, u) ∧ readBytes s.toEngine row.first (row.scriptWidth * k) = some bs ∧
      u.toEngine = s.toEngine ∧ u.script = s.script := by
  induction k with
  | zero => exact ⟨[], s, rfl, rfl, rfl, rfl⟩
  | succ k ih =>
    rw [Nat.mul_succ] at hk ⊢
    obtain ⟨bs, u, hperform, hbytes, hengine, hscript⟩ := ih (by omega)
    have hrow : (admittedRow .read (row.first + row.scriptWidth * k) row.scriptWidth).isSome :=
      Option.isSome_of_eq_some (script_access_admitted hmem hread (Nat.mul_mod_right ..) hk)
    obtain ⟨more, hmore⟩ := Option.isSome_iff_exists.mp (readBytes_isSome_of_admitted hnr hrow)
    rw [List.range_succ, List.map_append]
    exact ⟨_, _, performScript_append hperform (performScript_memRead hrow (hengine ▸ hmore)), readBytes_append hbytes hmore,
      hengine, hscript⟩

/-- A region with a one-byte width is spelled in bytes, any other in words of four. -/
theorem mod_scriptWidth {row : MapRow} {n : Nat} (h : 1 ∈ row.widths ∨ n % 4 = 0) : n % row.scriptWidth = 0 := by
  unfold MapRow.scriptWidth
  split
  · exact Nat.mod_one n
  · rename_i hone
    exact h.resolve_left (by simpa using hone)

/-- `RD name, n` (spec/30_encoding.md R90). -/
theorem readScript_performed {s : State} {row : MapRow} {n : Nat} (hmem : row ∈ windowMap) (hread : Right.read ∈ row.rights)
    (hn : n ≤ row.size) (hwhole : 1 ∈ row.widths ∨ n % 4 = 0) (hnr : s.toEngine.RoundCountLegal) :
    ∃ steps bs u, readScript row.region n = some steps ∧ performScript steps s = some (bs, u) ∧ bs.length = n ∧
      (∀ j, j < n → byteAt s.toEngine (row.first + j) = bs[j]?) ∧ u.toEngine = s.toEngine ∧ u.script = s.script := by
  have hmod := mod_scriptWidth hwhole
  have hcover : row.scriptWidth * (n / row.scriptWidth) = n := Nat.mul_div_cancel' (Nat.dvd_of_mod_eq_zero hmod)
  have hrow := scriptRow_eq_some hmem hread (by omega) (Nat.zero_mod _) hmod
  obtain ⟨bs, u, hperform, hbytes, hengine, hscript⟩ := performScript_reads hmem hread hnr (hcover.trans_le hn)
  rw [hcover] at hbytes
  obtain ⟨hlength, himage⟩ := readBytes_eq_some hbytes
  exact ⟨_, bs, u, by rw [readScript, hrow]; rfl, hperform, hlength, himage, hengine, hscript⟩

/-! ### `WR`: scripts of data writes -/

/-- A script of one admitted data write stores its bytes and returns none. -/
theorem performScript_memWrite {s : State} {off : Nat} {v : List Byte} {row : MapRow} (hf : s.fcause = none)
    (hrow : admittedRow .write off v.length = some row) (hoff : off ≠ 0x000) :
    performScript [.memWrite off v] s =
      some ([], { s with toEngine := writeRegion s.toEngine (off - row.first) v row.region, answer := .done }) :=
  performScript_singleton (step_dataWrite rfl hf hrow hoff) rfl

/-- One more slice of a sequence. -/
theorem take_append_slice (bs : List Byte) (m n : Nat) : bs.take m ++ slice bs m n = bs.take (m + n) := by
  rw [slice, List.take_add]

/-- A storage region is not that of `CMD`, and a script spells it in bytes. -/
theorem MapRow.IsStorage.first_and_width {row : MapRow} (h : row.IsStorage) : row.first ≠ 0x000 ∧ row.scriptWidth = 1 := by
  obtain ⟨hmem, hwrite, hcmd⟩ := h
  have all : ∀ r ∈ windowMap, Right.write ∈ r.rights → r.region ≠ .cmd →
      r.first ≠ 0x000 ∧ r.scriptWidth = 1 := by decide
  exact all row hmem hwrite hcmd

/-- A write of no bytes keeps the engine. -/
theorem writeRegion_nil (e : Engine) (j : Nat) (r : Region) : writeRegion e j [] r = e := by
  cases r with
  | buf d => cases d <;> rfl
  | _ => rfl

/-- The first `k` one-byte writes of a script store the first `k` bytes. -/
theorem performScript_writes {row : MapRow} (hstore : row.IsStorage) {s : State} (hf : s.fcause = none) {off : Nat}
    {bs : List Byte} (hfits : off + bs.length ≤ row.size) {k : Nat} (hk : k ≤ bs.length) :
    ∃ u, performScript ((List.range k).map fun j => .memWrite (row.first + off + j) (slice bs j 1)) s = some ([], u) ∧
      u.script = s.script ∧ u.toEngine = writeRegion s.toEngine off (bs.take k) row.region := by
  induction k with
  | zero => exact ⟨s, rfl, rfl, (writeRegion_nil ..).symm⟩
  | succ k ih =>
    obtain ⟨u, hperform, hscript, hengine⟩ := ih (by omega)
    obtain ⟨hfirst, hwidth⟩ := hstore.first_and_width
    obtain ⟨hmem, hwrite, _⟩ := hstore
    have hlength : (slice bs k 1).length = 1 := by rw [slice, List.length_take, List.length_drop]; omega
    have hrow : admittedRow .write (row.first + off + k) (slice bs k 1).length = some row := by
      have := script_access_admitted hmem hwrite (off := off + k) (by rw [hwidth]; exact Nat.mod_one _) (by omega)
      rwa [hwidth, ← Nat.add_assoc, ← hlength] at this
    have hlive : u.fcause = none := by rw [hengine, writeRegion_fcause, hf]
    rw [List.range_succ, List.map_append]
    refine ⟨_, performScript_append hperform (performScript_memWrite hlive hrow (by omega)), hscript, ?_⟩
    have hoff : row.first + off + k - row.first = off + (bs.take k).length := by rw [List.length_take]; omega
    rw [← take_append_slice, writeRegion_append, ← hengine, ← hoff]

/-- `WR name+off, hexbytes` (spec/30_encoding.md R90). -/
theorem writeScript_performed {s : State} {row : MapRow} {off : Nat} {bs : List Byte} (hstore : row.IsStorage)
    (hfits : off + bs.length ≤ row.size) (hf : s.fcause = none) :
    ∃ steps u, writeScript row.region off bs = some steps ∧ performScript steps s = some ([], u) ∧ u.script = s.script ∧
      u.toEngine = writeRegion s.toEngine off bs row.region := by
  obtain ⟨_, hwidth⟩ := hstore.first_and_width
  obtain ⟨u, hperform, hscript, hengine⟩ := performScript_writes hstore hf hfits le_rfl
  obtain ⟨hmem, hwrite, _⟩ := hstore
  have hone (n : Nat) : n % row.scriptWidth = 0 := by rw [hwidth]; exact Nat.mod_one n
  have hrow := scriptRow_eq_some hmem hwrite hfits (hone _) (hone _)
  rw [List.take_length] at hengine
  refine ⟨_, u, ?_, hperform, hscript, hengine⟩
  simp only [writeScript, hrow, hwidth, Option.map_some, Nat.div_one, Nat.one_mul]

/-! ### Commands and `RD STATUS` -/

/-- A step that finds the word of a well-formed command runs the command (spec/30_encoding.md R90). -/
theorem step_issue {s : State} {i : Instr} (hwf : i.wf = true) (hf : s.fcause = none) :
    step { s with script := issue i :: s.script } = exec i { s with answer := .done } := by
  have hd : decode (be32 (bytes32 (encode i))) = .command i := by rw [be32_bytes32, encodeThenDecode i hwf]
  have hstep := step_dispatch (s := { s with script := issue i :: s.script }) rfl (bytes32_length _) hf
  exact hstep.trans (dispatchWord_command hf hd)

/-- `RD STATUS` shows the `STATUS` word (spec/30_encoding.md R90). -/
theorem shownStatus_eq (s : State) : shownStatus s = some (statusWord s.toEngine) := by
  have hbytes : readBytes s.toEngine 0x004 4 = some (bytes32 (statusWord s.toEngine)) :=
    readBytes_of_byteAt fun j hj => byteAt_region (r := .status) (size := 4) (by decide) s.toEngine hj
  rw [shownStatus, readStatus, performScript_memRead (by decide) hbytes, Option.map_some, be32_bytes32]

/-- Settles O58: what each form of a host script spells, performed. -/
theorem scriptNotationMeansItsAccesses : Obligations.ScriptNotationMeansItsAccesses := by
  refine ⟨fun s row n hmem hread hn hwhole hnr => readScript_performed hmem hread hn hwhole hnr,
    fun s row off bs hmem hwrite hcmd hfits hf => ?_, fun s i hwf hf => step_issue hwf hf, shownStatus_eq⟩
  have hstore : row.IsStorage := ⟨hmem, hwrite, hcmd⟩
  obtain ⟨steps, u, hsteps, hperform, hscript, hengine⟩ := writeScript_performed hstore hfits hf
  have image := byteAt_writeRegion hstore s.toEngine (off := row.first + off) (v := bs) (by omega) (by omega)
  rw [Nat.add_sub_cancel_left, ← hengine] at image
  refine ⟨steps, u, hsteps, hperform, hscript, fun j hj => ?_, fun o ho => ?_⟩
  · rw [image, if_pos (by omega), Nat.add_sub_cancel_left]
  · rw [image, if_neg ho]

end Sys2Proof.Machine
end

section
/-!
PROOFS. The key schedule of spec/41_key_schedule.md: how the key is parsed (R104) and expanded (R106), what `KEYX` makes of the
engine (R103, R108, R109, R111), and its micro-steps (R110).
-/

namespace Sys2Proof.Machine

/-! ### Sequences laid over arrays -/

/-- An array with a sequence laid over its first entries: an entry past the sequence's end keeps its value. -/
def overlay {w n : Nat} (l : List (BitVec w)) (v : Vector (BitVec w) n) : Vector (BitVec w) n :=
  Vector.ofFn fun i : Fin n => l.getD i v[i]

@[simp] theorem overlay_getElem {w n : Nat} (l : List (BitVec w)) (v : Vector (BitVec w) n) (i : Nat) (h : i < n) :
    (overlay l v)[i] = l.getD i v[i] := by
  simp [overlay]

/-- An entry the sequence covers. -/
theorem overlay_getElem?_of_lt {w n : Nat} {l : List (BitVec w)} (v : Vector (BitVec w) n) {i : Nat} (hl : i < l.length)
    (hn : i < n) : (overlay l v)[i]? = some (l.getD i 0) := by
  simp [hl, hn]

/-- A sequence laid over an array twice. -/
theorem overlay_overlay {w n : Nat} (l : List (BitVec w)) (v : Vector (BitVec w) n) : overlay l (overlay l v) = overlay l v := by
  ext i hi : 1
  by_cases h : i < l.length <;> simp [h]

/-- One more entry at the sequence's end. -/
theorem overlay_append_singleton {w n : Nat} (l : List (BitVec w)) (a : BitVec w) (v : Vector (BitVec w) n) :
    overlay (l ++ [a]) v = (overlay l v).setIfInBounds l.length a := by
  ext i hi : 1
  rcases lt_trichotomy i l.length with h | rfl | h
  · simp [h, h.ne', List.getElem?_append_left h]
  · simp
  · simp [h.ne, List.getElem?_eq_none h.le, List.getElem?_append_right h.le, (Nat.sub_pos_of_lt h).ne']

/-- A sequence of one entry. -/
theorem overlay_singleton {w n : Nat} (a : BitVec w) (v : Vector (BitVec w) n) : overlay [a] v = v.setIfInBounds 0 a := by
  have hnil : overlay [] v = v := by ext i hi : 1; simp
  have h := overlay_append_singleton [] a v
  rwa [hnil] at h

/-- Another value for an entry of the sequence. -/
theorem overlay_set {w n : Nat} {l : List (BitVec w)} {i : Nat} (h : i < l.length) (a : BitVec w) (v : Vector (BitVec w) n) :
    overlay (l.set i a) v = (overlay l v).setIfInBounds i a := by
  ext j hj : 1
  by_cases hij : i = j
  · subst hij; simp [h]
  · simp [hij, List.getElem?_set_ne hij]

/-- An array of a sequence and zeros is the sequence laid over any array, with zeros past its end. -/
theorem padTo_eq_overlay {w n : Nat} (l : List (BitVec w)) (v : Vector (BitVec w) n) :
    padTo n l = Vector.ofFn fun i : Fin n => if l.length ≤ i then 0 else (overlay l v)[i] := by
  ext i hi : 1
  by_cases h : l.length ≤ i
  · simp [h]
  · simp [h, Nat.lt_of_not_le h]

/-! ### The key words (spec/41_key_schedule.md R104, R105) -/

/-- Settles O12: the formula of R105 at each of the three lengths. -/
theorem keyWordsInTheirOrder : Obligations.KeyWordsInTheirOrder := by
  refine fun key => ⟨fun h => ?_, fun h => ?_, fun h => ?_⟩ <;> simp [parseKey, leftWords, h, List.range_succ]

/-- The key bytes are the first `klen` bytes of `KEY`. -/
theorem keyBytes_eq_take (klen : Nat) (e : Engine) : keyBytes klen e = e.key.toList.take klen := rfl

/-- `KEY` has all the bytes of an accepted length. -/
theorem keyBytes_length_of_keyLengthOk {klen : Nat} (hk : keyLengthOk klen = true) (e : Engine) :
    (keyBytes klen e).length = klen := by
  obtain ⟨hle, -⟩ := roundCount_of_keyLengthOk hk
  exact keyBytes_length hle e

/-- A slice of the key bytes is that slice of `KEY`. -/
theorem slice_keyBytes {klen start len : Nat} (h : start + len ≤ klen) (e : Engine) :
    slice (keyBytes klen e) start len = slice e.key.toList start len := by
  rw [keyBytes_eq_take, slice, List.drop_take, List.take_take, Nat.min_eq_left (by omega), slice]

/-- An accepted length leaves at least one left word, and all its words lie in the key bytes. -/
theorem leftWords_of_keyLengthOk {klen : Nat} (hk : keyLengthOk klen = true) :
    1 ≤ leftWords klen ∧ leftWords klen ≤ 3 ∧ 8 * leftWords klen + 8 = klen := by
  rcases keyLengthOk_iff.mp hk with rfl | rfl | rfl <;> decide

/-- Round key 0 is the right-hand word (spec/41_key_schedule.md R106). -/
theorem parseKey_rk (key : List Byte) : (parseKey key).rk = [(parseKey key).r] := rfl

/-- The left words of `KEY`, by the formula of R105. -/
theorem parseKey_keyBytes_l {klen : Nat} (hk : keyLengthOk klen = true) (e : Engine) :
    (parseKey (keyBytes klen e)).l =
      (List.range (leftWords klen)).map fun j => be64 (slice e.key.toList (8 * (leftWords klen - 1 - j)) 8) := by
  obtain ⟨-, -, hwords⟩ := leftWords_of_keyLengthOk hk
  rw [parseKey, keyBytes_length_of_keyLengthOk hk]
  refine List.map_congr_left fun j hj => ?_
  rw [slice_keyBytes (by rw [List.mem_range] at hj; omega)]

/-- The right-hand word of `KEY`, by the formula of R105. -/
theorem parseKey_keyBytes_r {klen : Nat} (hk : keyLengthOk klen = true) (e : Engine) :
    (parseKey (keyBytes klen e)).r = be64 (slice e.key.toList (8 * leftWords klen) 8) := by
  obtain ⟨-, -, hwords⟩ := leftWords_of_keyLengthOk hk
  rw [parseKey, keyBytes_length_of_keyLengthOk hk, slice_keyBytes hwords.le]

/-! ### The expansion, iteration by iteration (spec/41_key_schedule.md R106) -/

/-- The working values before iteration `i`. -/
def expansionBefore (key : List Byte) (i : Nat) : Expansion :=
  (List.range i).foldl (expandStep (leftWords key.length)) (parseKey key)

theorem expansionBefore_zero (key : List Byte) : expansionBefore key 0 = parseKey key := rfl

theorem expansionBefore_succ (key : List Byte) (i : Nat) :
    expansionBefore key (i + 1) = expandStep (leftWords key.length) (expansionBefore key i) i := by
  simp [expansionBefore, List.range_succ]

theorem expandKey_eq_expansionBefore (key : List Byte) :
    expandKey key = expansionBefore key (roundCount key.length - 1) := rfl

/-- The round keys so far are the right-hand words so far. -/
theorem expansionBefore_rk (key : List Byte) (i : Nat) :
    (expansionBefore key i).rk = (List.range (i + 1)).map fun j => (expansionBefore key j).r := by
  induction i with
  | zero => rfl
  | succ i ih => rw [List.range_succ, List.map_append, ← ih, List.map_singleton, expansionBefore_succ]; rfl

/-- The left-word array keeps its size. -/
theorem expansionBefore_l_length (key : List Byte) (i : Nat) : (expansionBefore key i).l.length = leftWords key.length := by
  induction i with
  | zero => simp [expansionBefore_zero, parseKey]
  | succ i ih => rw [expansionBefore_succ, expandStep, List.length_set, ih]

/-- The right-hand word before iteration `i` is round key `i`. -/
theorem keySchedule_getElem? {key : List Byte} {i : Nat} (h : i < roundCount key.length) :
    (keySchedule key)[i]? = some (expansionBefore key i).r := by
  have hlast : roundCount key.length - 1 + 1 = roundCount key.length := by rw [roundCount]; omega
  rw [keySchedule, expandKey_eq_expansionBefore, expansionBefore_rk, hlast]
  simp [h]

section
variable {m i : Nat} {w : Expansion}

/-- An iteration's left word: the first half of the forward round with the constant `i`. -/
theorem expandStep_l_same (h : i % m < w.l.length) : (expandStep m w i).l.getD (i % m) 0 =
    xor64 (add64 (ror64 (w.l.getD (i % m) 0) 8) w.r) (BitVec.ofNat 64 i) := by
  simp [expandStep, h, roundForward]

/-- An iteration's right-hand word uses the new left word. -/
theorem expandStep_r (h : i % m < w.l.length) :
    (expandStep m w i).r = xor64 (rol64 w.r 3) ((expandStep m w i).l.getD (i % m) 0) := by
  rw [expandStep_l_same h]; rfl

/-- The left words an iteration does not name. -/
theorem expandStep_l_of_ne {j : Nat} (h : j ≠ i % m) : (expandStep m w i).l.getD j 0 = w.l.getD j 0 := by
  simp [expandStep, h.symm]

end

/-! ### What `KEYX` makes of the engine (spec/41_key_schedule.md R103, R108, R109, R111) -/

/-- Settles O14: the schedule's working values before each iteration are the family asked for. -/
theorem keyxConstructsTheContext : Obligations.KeyxConstructsTheContext := by
  intro s klen hf hk
  have hk : keyLengthOk klen = true := keyLengthOk_iff.mpr hk
  obtain ⟨-, hrc, -, hnr, -⟩ := roundCount_of_keyLengthOk hk
  obtain ⟨hm, -, -⟩ := leftWords_of_keyLengthOk hk
  have hlength : (keyBytes klen s.toEngine).length = klen := keyBytes_length_of_keyLengthOk hk _
  have hschedule : (keySchedule (keyBytes klen s.toEngine)).length = roundCount klen := by rw [keySchedule_length, hlength]
  have hm_eq : klen / 8 - 1 = leftWords klen := rfl
  have hT_eq : 31 + leftWords klen = roundCount klen := rfl
  simp only [hm_eq, hT_eq]
  refine ⟨_, execKeyx_complete hf hk, ?_, constructContext_err .., fun i hi hi34 => ?_,
    fun i j => (expansionBefore (keyBytes klen s.toEngine) i).l.getD j 0,
    fun i => (expansionBefore (keyBytes klen s.toEngine) i).r, fun i hi => ?_, fun j hj => ?_, ?_, fun i _ => ?_⟩
  · rw [constructContext_nr, hnr]
  · rw [constructContext_rk]
    simp [hi34, List.getElem?_eq_none (hschedule.trans_le hi)]
  · rw [constructContext_rk]
    simp [hi.trans_le hrc, keySchedule_getElem? (hi.trans_eq (congrArg roundCount hlength.symm))]
  · simp [expansionBefore_zero, parseKey_keyBytes_l hk, hj]
  · exact parseKey_keyBytes_r hk _
  · have hslot : i % leftWords klen < (expansionBefore (keyBytes klen s.toEngine) i).l.length := by
      rw [expansionBefore_l_length, hlength]; exact Nat.mod_lt _ hm
    simp only [expansionBefore_succ, hlength]
    exact ⟨expandStep_l_same hslot, expandStep_r hslot, fun j => expandStep_l_of_ne⟩

/-- A length that is not accepted sets `ERR` alone. -/
theorem execKeyx_badLength {s : State} {klen : Nat} (hf : s.fcause = none) (hk : keyLengthOk klen = false) :
    execKeyx klen s = .next { s with err := .invalidKeyLength } :=
  runCommand_eq_next hf (if_pos hk)

/-- The lengths that are not accepted. -/
theorem keyLengthOk_eq_false {klen : Nat} (h16 : klen ≠ 16) (h24 : klen ≠ 24) (h32 : klen ≠ 32) : keyLengthOk klen = false := by
  simp [keyLengthOk, h16, h24, h32]

/-- Settles O13: the length test comes first. -/
theorem keyxBadLengthSetsErrOnly : Obligations.KeyxBadLengthSetsErrOnly :=
  fun _ _ hf h16 h24 h32 => execKeyx_badLength hf (keyLengthOk_eq_false h16 h24 h32)

/-- A completed block command overwrites whatever `ERR` held. -/
theorem completeBlock_with_err (d : Slot) (x : Word × Word) (ridx : BitVec 6) (e : Engine) (code : ErrCode) :
    completeBlock d x ridx { e with err := code } = completeBlock d x ridx e := by
  cases d <;> rfl

theorem loadBlock_with_err (d : Slot) (e : Engine) (code : ErrCode) : loadBlock d { e with err := code } = loadBlock d e :=
  loadBlock_congr (by cases d <;> rfl)

theorem encBody_with_err (ds ss : Slot) (e : Engine) (code : ErrCode) :
    encBody ds ss { e with err := code } = encBody ds ss e := by
  rw [encBody, loadBlock_with_err, completeBlock_with_err]; rfl

theorem decBody_with_err (ds ss : Slot) (e : Engine) (code : ErrCode) :
    decBody ds ss { e with err := code } = decBody ds ss e := by
  rw [decBody, loadBlock_with_err, completeBlock_with_err]; rfl

/-- Settles O28: the failed `KEYX` changes `ERR` alone, which `ENC` and `DEC` overwrite without reading it. -/
theorem failedKeyxKeepsTheContext : Obligations.FailedKeyxKeepsTheContext := by
  intro s klen ds ss hf h16 h24 h32 hn hd
  refine ⟨{ s with err := .invalidKeyLength }, keyxBadLengthSetsErrOnly s klen hf h16 h24 h32, rfl, rfl, rfl, ?_, ?_⟩
  · change execEnc .. = execEnc ..
    rw [execEnc_complete (s := s) hf hn hd,
      execEnc_complete (s := { s with err := .invalidKeyLength }) hf hn hd, encBody_with_err]
  · change execDec .. = execDec ..
    rw [execDec_complete (s := s) hf hn hd,
      execDec_complete (s := { s with err := .invalidKeyLength }) hf hn hd, decBody_with_err]

/-- Settles O26: `RK` and `NR` of the new context are functions of the declared bytes and the length. -/
theorem keyxReadsDeclaredBytesOnly : Obligations.KeyxReadsDeclaredBytesOnly := by
  intro a b t u klen ha hb hk hkey ht hu
  have hk : keyLengthOk klen = true := keyLengthOk_iff.mpr hk
  obtain rfl : _ = t := Host.Outcome.next.inj ((execKeyx_complete ha hk).symm.trans ht)
  obtain rfl : _ = u := Host.Outcome.next.inj ((execKeyx_complete hb hk).symm.trans hu)
  simp only [constructContext_rk, constructContext_nr, keyBytes_eq_take, hkey, and_self]

/-- A new context, by the sequences it lays over the arrays of the engine. -/
theorem constructContext_eq (klen : Nat) (e : Engine) : constructContext klen e = { e with
    rk := padTo 34 (keySchedule (keyBytes klen e))
    nr := BitVec.ofNat 6 (roundCount klen)
    err := .ok
    seq := { e.seq with
      ridx := BitVec.ofNat 6 (roundCount klen - 1)
      x2 := (expandKey (keyBytes klen e)).r
      l := overlay (expandKey (keyBytes klen e)).l e.seq.l
      m := BitVec.ofNat 2 (leftWords klen)
      phase := .idle } } := rfl

/-- A new context made again is the same. -/
theorem constructContext_idem (klen : Nat) (e : Engine) :
    constructContext klen (constructContext klen e) = constructContext klen e := by
  have hkey : keyBytes klen (constructContext klen e) = keyBytes klen e := by simp only [keyBytes, constructContext_key]
  rw [constructContext_eq klen (constructContext klen e), hkey, constructContext_eq klen e, overlay_overlay]

/-- Settles O27: discarded both times, `ERR` set twice, or the context made again. -/
theorem keyxTwiceIsKeyxOnce : Obligations.KeyxTwiceIsKeyxOnce := by
  intro s t klen h
  rcases runCommand_cases h with ⟨hf, rfl⟩ | ⟨hf, e, he, rfl⟩
  · exact h
  rcases keyxBody_cases he with ⟨hk, rfl⟩ | ⟨hk, rfl⟩
  · exact execKeyx_badLength hf hk
  · refine (execKeyx_complete (by simpa using hf) hk).trans ?_
    rw [constructContext_idem]

/-! ### The micro-steps of `KEYX` (spec/41_key_schedule.md R110) -/

/-- One micro-step more. -/
theorem runMicro_succ (micro : Engine → Option Engine) (n : Nat) (e : Engine) :
    runMicro micro (n + 1) e = (runMicro micro n e).bind micro := by
  induction n generalizing e with
  | zero => simp only [runMicro, Option.bind_some]; cases micro e <;> rfl
  | succ n ih =>
    rw [runMicro, runMicro]
    cases micro e with
    | none => rfl
    | some e' => exact ih e'

/-- Micro-steps along a family of engines. -/
theorem runMicro_family {micro : Engine → Option Engine} {f : Nat → Engine} {n : Nat}
    (h : ∀ i, i < n → micro (f i) = some (f (i + 1))) : runMicro micro n (f 0) = some (f n) := by
  induction n with
  | zero => rfl
  | succ n ih => rw [runMicro_succ, ih fun i hi => h i (by omega)]; exact h n (by omega)

/-- The engine at iteration `i` of the schedule with the working values `w`, which stand in the hidden registers and the first
entries of the file (spec/41_key_schedule.md R110). -/
def scheduling (klen i : Nat) (w : Expansion) (e : Engine) : Engine :=
  { e with
    rk := overlay w.rk e.rk
    seq := { e.seq with
      ridx := BitVec.ofNat 6 i
      x2 := w.r
      l := overlay w.l e.seq.l
      m := BitVec.ofNat 2 (leftWords klen)
      phase := .ks } }

theorem scheduling_ridx_toNat (klen : Nat) {i : Nat} (hi : i < 64) (w : Expansion) (e : Engine) :
    (scheduling klen i w e).seq.ridx.toNat = i := by
  rw [scheduling, BitVec.toNat_ofNat, Nat.mod_eq_of_lt hi]

theorem scheduling_m_toNat {klen : Nat} (hk : keyLengthOk klen = true) (i : Nat) (w : Expansion) (e : Engine) :
    (scheduling klen i w e).seq.m.toNat = leftWords klen := by
  obtain ⟨-, hm, -⟩ := leftWords_of_keyLengthOk hk
  rw [scheduling, BitVec.toNat_ofNat, Nat.mod_eq_of_lt (by omega)]

/-- A micro-step before the last iteration is a `step`. -/
theorem ksMicro_step {e : Engine} (hp : e.seq.phase = .ks) (h : e.seq.ridx.toNat < 30 + e.seq.m.toNat) :
    ksMicro e = ksAdvance e := by
  rw [ksMicro, if_neg (by simp [hp]), if_pos h]

/-- A micro-step after the last iteration is `finish`. -/
theorem ksMicro_finish {e : Engine} (hp : e.seq.phase = .ks) (h : e.seq.ridx.toNat = 30 + e.seq.m.toNat) :
    ksMicro e = some (ksFinish e) := by
  rw [ksMicro, if_neg (by simp [hp]), if_neg h.not_lt, if_pos h]

/-- A `step` that finds the left word `ls` in slot `i mod m`. -/
theorem ksAdvance_eq {e : Engine} {i m : Nat} {ls : Word} (hi : e.seq.ridx.toNat = i) (hm : e.seq.m.toNat = m)
    (hl : e.seq.l[i % m]? = some ls) : ksAdvance e = some { e with
      rk := e.rk.setIfInBounds (i + 1) (roundForward (BitVec.ofNat 64 i) (ls, e.seq.x2)).2
      seq := { e.seq with
        l := e.seq.l.setIfInBounds (i % m) (roundForward (BitVec.ofNat 64 i) (ls, e.seq.x2)).1
        x2 := (roundForward (BitVec.ofNat 64 i) (ls, e.seq.x2)).2
        ridx := e.seq.ridx + 1 } } := by
  subst hi hm
  simp only [ksAdvance, hl, BitVec.ofNat_toNat]

/-- A `step` performs the iteration the working values have come to. -/
theorem ksAdvance_scheduling {klen i : Nat} {w : Expansion} (hk : keyLengthOk klen = true) (hi : i < 64)
    (hl : w.l.length = leftWords klen) (hrk : w.rk.length = i + 1) (e : Engine) :
    ksAdvance (scheduling klen i w e) = some (scheduling klen (i + 1) (expandStep (leftWords klen) w i) e) := by
  obtain ⟨hm, hm3, -⟩ := leftWords_of_keyLengthOk hk
  have hmod : i % leftWords klen < leftWords klen := Nat.mod_lt _ hm
  have hslot : i % leftWords klen < w.l.length := by rwa [hl]
  have hleft : (scheduling klen i w e).seq.l[i % leftWords klen]? = some (w.l.getD (i % leftWords klen) 0) :=
    overlay_getElem?_of_lt _ hslot (by omega)
  rw [ksAdvance_eq (scheduling_ridx_toNat klen hi w e) (scheduling_m_toNat hk i w e) hleft]
  simp only [scheduling, expandStep, overlay_append_singleton, overlay_set hslot, hrk, BitVec.ofNat_add]
  rfl

section
variable {klen : Nat} (hk : keyLengthOk klen = true) (e : Engine)
include hk

/-- `start` stages the parsed key. -/
theorem ksStart_eq : ksStart klen e = scheduling klen 0 (parseKey (keyBytes klen e)) e := by
  have hrk : overlay (parseKey (keyBytes klen e)).rk e.rk =
      e.rk.setIfInBounds 0 (be64 (slice e.key.toList (8 * leftWords klen) 8)) := by
    rw [parseKey_rk, parseKey_keyBytes_r hk, overlay_singleton]
  have hl : overlay (parseKey (keyBytes klen e)).l e.seq.l = Vector.ofFn fun j : Fin 3 =>
      if j < leftWords klen then be64 (slice e.key.toList (8 * (leftWords klen - 1 - j)) 8) else e.seq.l[j] := by
    ext j hj : 1
    by_cases h : j < leftWords klen <;> simp [parseKey_keyBytes_l hk, h]
  rw [scheduling, hrk, hl, parseKey_keyBytes_r hk]
  rfl

/-- A micro-step before the last iteration leads from the working values before it to those after it. -/
theorem ksMicro_expansionBefore {i : Nat} (hi : i < 30 + leftWords klen) :
    ksMicro (scheduling klen i (expansionBefore (keyBytes klen e) i) e) =
      some (scheduling klen (i + 1) (expansionBefore (keyBytes klen e) (i + 1)) e) := by
  obtain ⟨-, hm, -⟩ := leftWords_of_keyLengthOk hk
  have hlength : (keyBytes klen e).length = klen := keyBytes_length_of_keyLengthOk hk e
  rw [ksMicro_step rfl (by rw [scheduling_ridx_toNat klen (by omega), scheduling_m_toNat hk]; exact hi),
    ksAdvance_scheduling hk (by omega) (by rw [expansionBefore_l_length, hlength]) (by simp [expansionBefore_rk]),
    expansionBefore_succ, hlength]

/-- The working values after the last iteration are those of the whole run. -/
theorem expandKey_keyBytes :
    expandKey (keyBytes klen e) = expansionBefore (keyBytes klen e) (30 + leftWords klen) := by
  have hlast : 31 + leftWords klen - 1 = 30 + leftWords klen := by omega
  rw [expandKey_eq_expansionBefore, keyBytes_length_of_keyLengthOk hk, roundCount, hlast]

/-- The micro-step after the last iteration makes the new context. -/
theorem ksMicro_expandKey :
    ksMicro (scheduling klen (30 + leftWords klen) (expandKey (keyBytes klen e)) e) = some (constructContext klen e) := by
  obtain ⟨-, hm, -⟩ := leftWords_of_keyLengthOk hk
  have hlength : (keyBytes klen e).length = klen := keyBytes_length_of_keyLengthOk hk e
  have hlast : roundCount klen - 1 = 30 + leftWords klen := by rw [roundCount]; omega
  rw [ksMicro_finish rfl (by rw [scheduling_ridx_toNat klen (by omega), scheduling_m_toNat hk]), ksFinish,
    scheduling_m_toNat hk, constructContext_eq, padTo_eq_overlay _ e.rk, keySchedule_length, hlength, hlast,
    keySchedule, roundCount]
  simp only [scheduling]

end

/-- Settles O55: `start` stages the parsed key, each `step` is one iteration, and `finish` makes the new context. -/
theorem keyxMicroStepsReachTheRule : Obligations.KeyxMicroStepsReachTheRule := by
  intro s klen hf hk
  have hk : keyLengthOk klen = true := keyLengthOk_iff.mpr hk
  have hrun := runMicro_family (f := fun i => scheduling klen i (expansionBefore (keyBytes klen s.toEngine) i) s.toEngine)
    fun i => ksMicro_expansionBefore hk s.toEngine (i := i)
  refine ⟨_, execKeyx_complete hf hk, ?_⟩
  change runMicro ksMicro (30 + leftWords klen + 1) _ = _
  rw [ksStart_eq hk, ← expansionBefore_zero, runMicro_succ, hrun, ← expandKey_keyBytes hk, Option.bind_some, ksMicro_expandKey hk]

end Sys2Proof.Machine
end

section
/-!
PROOFS. The rounds of spec/42_round_primitives.md: the two round functions (R120 to R122), the single-round commands RNDF and RNDI
(R124, R127), and the law that each undoes the other (R127).
-/

namespace Sys2Proof.Machine

/-! ### The round functions (spec/42_round_primitives.md R120 to R122) -/

/-- The forward round on bit vectors (spec/42_round_primitives.md R120). -/
theorem roundForward_eq (k x1 x2 : Word) : roundForward k (x1, x2) =
    ((x1.rotateRight 8 + x2) ^^^ k, x2.rotateLeft 3 ^^^ ((x1.rotateRight 8 + x2) ^^^ k)) := by
  rw [roundForward, ror64_eq _ (by decide), rol64_eq _ (by decide), add64_eq]
  rfl

/-- The inverse round on bit vectors (spec/42_round_primitives.md R121). -/
theorem roundInverse_eq (k x1 x2 : Word) : roundInverse k (x1, x2) =
    (((x1 ^^^ k) - (x2 ^^^ x1).rotateRight 3).rotateLeft 8, (x2 ^^^ x1).rotateRight 3) := by
  rw [roundInverse, ror64_eq _ (by decide), rol64_eq _ (by decide), sub64_eq]
  rfl

/-- Settles O3: each word operation of the rounds is the operation of the bit vectors. -/
theorem roundFormulas : Obligations.RoundFormulas :=
  fun k x1 x2 => ⟨roundForward_eq k x1 x2, roundInverse_eq k x1 x2⟩

/-- The inverse round undoes the forward round: its operations undo those of the forward round, the last one first. -/
theorem roundInverse_roundForward (k : Word) (x : Word × Word) : roundInverse k (roundForward k x) = x := by
  have right : ror64 (rol64 x.2 3) 3 = x.2 := ror64_rol64 _ (by decide)
  have left : rol64 (ror64 x.1 8) 8 = x.1 := rol64_ror64 _ (by decide)
  simp only [roundForward, roundInverse, xor64_xor64_cancel, right, sub64_add64, left]

/-- The forward round undoes the inverse round. -/
theorem roundForward_roundInverse (k : Word) (x : Word × Word) : roundForward k (roundInverse k x) = x := by
  have right : rol64 (ror64 (xor64 x.2 x.1) 3) 3 = xor64 x.2 x.1 := rol64_ror64 _ (by decide)
  have left (a : Word) : ror64 (rol64 a 8) 8 = a := ror64_rol64 _ (by decide)
  simp only [roundForward, roundInverse, left, add64_sub64, xor64_xor64_cancel, right]

/-- Settles O4: the inverse round is a two-sided inverse of the forward round. -/
theorem roundsAreInverse : Obligations.RoundsAreInverse := fun k =>
  ⟨roundInverse_roundForward k, roundForward_roundInverse k,
    Function.bijective_iff_has_inverse.mpr ⟨roundInverse k, roundInverse_roundForward k, roundForward_roundInverse k⟩⟩

/-! ### One round on a block (spec/42_round_primitives.md R124, R127) -/

/-- The round key operand is the word of all the bytes of `KOP` (spec/10_state.md R22). -/
theorem operandKey_eq (e : Engine) : operandKey e = be64 e.kop.toList := by
  rw [operandKey, slice, List.drop_zero, List.take_of_length_le (by simp)]

/-- A completed block command keeps the round key operand. -/
@[simp] theorem operandKey_completeBlock (d : Slot) (x : Word × Word) (ridx : BitVec 6) (e : Engine) :
    operandKey (completeBlock d x ridx e) = operandKey e := by
  rw [operandKey, completeBlock_kop, operandKey]

/-- One round `round` on `BUF[SS]` with the key in `KOP`, into `BUF[DS]`: what RNDF and RNDI have in common. -/
def singleRound (round : Word → Word × Word → Word × Word) (ds ss : Slot) (e : Engine) : Engine :=
  completeBlock ds (round (operandKey e) (loadBlock ss e)) e.seq.ridx e

/-- RNDF is the single-round command of the forward round (spec/42_round_primitives.md R124). -/
theorem exec_rndf_eq (ds : Slot) (dlen : Nat) (ss : Slot) (slen : Nat) (s : State) :
    exec (.rndf ds dlen ss slen) s = runCommand (withBuffers dlen slen (singleRound roundForward ds ss)) s := rfl

/-- RNDI is the single-round command of the inverse round (spec/42_round_primitives.md R127). -/
theorem exec_rndi_eq (ds : Slot) (dlen : Nat) (ss : Slot) (slen : Nat) (s : State) :
    exec (.rndi ds dlen ss slen) s = runCommand (withBuffers dlen slen (singleRound roundInverse ds ss)) s := rfl

/-- RNDF and RNDI with a declared length other than 16 raise `BUFLEN` (spec/42_round_primitives.md R124). -/
theorem runCommand_withBuffers_buflen {body : Engine → Engine} {s : State} {dlen slen : Nat} (hf : s.fcause = none)
    (hl : ¬(slen = 16 ∧ dlen = 16)) :
    runCommand (withBuffers dlen slen body) s = .next { s with fcause := some .buflen } :=
  runCommand_eq_next hf (if_pos (by simpa [← bufferLengthsOk_iff] using hl))

/-- Both cases of a single-round command outside the fatal state, by its round (spec/42_round_primitives.md R124). -/
theorem runCommand_singleRound (round : Word → Word × Word → Word × Word) (s : State) (ds ss : Slot) (dlen slen : Nat)
    (hf : s.fcause = none) :
    (¬(slen = 16 ∧ dlen = 16) →
      runCommand (withBuffers dlen slen (singleRound round ds ss)) s = .next { s with fcause := some .buflen }) ∧
    (slen = 16 → dlen = 16 →
      ∃ (t : State) (y : Word × Word), runCommand (withBuffers dlen slen (singleRound round ds ss)) s = .next t ∧
        y = round (be64 s.kop.toList) (loadBlock ss s.toEngine) ∧
        (readSlot ds t.toEngine).toList = bytes64 y.1 ++ bytes64 y.2 ∧
        (∀ d, d ≠ ds → readSlot d t.toEngine = readSlot d s.toEngine) ∧
        t.err = .ok ∧ t.fcause = none ∧ t.kop = s.kop ∧ t.rk = s.rk ∧ t.nr = s.nr ∧ t.key = s.key) := by
  refine ⟨runCommand_withBuffers_buflen hf, ?_⟩
  rintro rfl rfl
  refine ⟨_, _, runCommand_eq_next hf rfl, rfl, ?_⟩
  rw [← operandKey_eq]
  exact ⟨readSlot_completeBlock .., fun d hd => readSlot_completeBlock_of_ne hd .., completeBlock_err ..,
    (completeBlock_fcause ..).trans hf, completeBlock_kop .., completeBlock_rk .., completeBlock_nr .., completeBlock_key ..⟩

/-- Settles O17: both cases of the single-round command, with the forward round. -/
theorem rndfAppliesOneForwardRound : Obligations.RndfAppliesOneForwardRound := by
  intro s ds ss dlen slen hf
  rw [exec_rndf_eq]
  exact runCommand_singleRound roundForward s ds ss dlen slen hf

/-- Settles O18: both cases of the single-round command, with the inverse round. -/
theorem rndiAppliesOneInverseRound : Obligations.RndiAppliesOneInverseRound := by
  intro s ds ss dlen slen hf
  rw [exec_rndi_eq]
  exact runCommand_singleRound roundInverse s ds ss dlen slen hf

/-! ### Two rounds that undo each other (spec/42_round_primitives.md R127) -/

/-- A single round after one it undoes, each with the same operand: the block is the one the first round read. -/
theorem readSlot_singleRound_singleRound {first second : Word → Word × Word → Word × Word}
    (h : ∀ k x, second k (first k x) = x) (a t u : Slot) (e : Engine) :
    readSlot u (singleRound second u t (singleRound first t a e)) = readSlot a e := by
  simp only [singleRound, readSlot_completeBlock_eq, operandKey_completeBlock, loadBlock_completeBlock, h, padTo_loadBlock]

/-- Settles O19: the first command keeps `KOP` and leaves its result in the slot that the second one reads. -/
theorem singleRoundsUndoEachOther : Obligations.SingleRoundsUndoEachOther := by
  intro s a t u hf
  exact ⟨⟨_, _, execRndf_complete hf, execRndi_complete ((completeBlock_fcause ..).trans hf),
      readSlot_singleRound_singleRound roundInverse_roundForward a t u _⟩,
    ⟨_, _, execRndi_complete hf, execRndf_complete ((completeBlock_fcause ..).trans hf),
      readSlot_singleRound_singleRound roundForward_roundInverse a t u _⟩⟩

end Sys2Proof.Machine
end

section
/-!
PROOFS. The cipher of spec/43_cipher_context.md: the rounds of ENC and DEC (R140, R141, R144, R145), that each undoes the other
(R146), in place and out of place (R149), the host's loop of single rounds (R153 item 7), the micro-steps (R150), and `BLKSZ`
(R156).
-/

namespace Sys2Proof.Machine

/-! ### The rounds of a context (spec/43_cipher_context.md R141, R145) -/

/-- The round keys of the context are the first entries of the file. -/
theorem contextKeys_getElem? {e : Engine} {i : Nat} (hi : i < e.nr.toNat) : (contextKeys e)[i]? = e.rk[i]? := by
  rw [contextKeys, List.getElem?_take_of_lt hi, Vector.getElem?_toList]

/-- A context whose `NR` the file can hold has one round key per round. -/
theorem contextKeys_length {e : Engine} (hd : e.nr.toNat ≤ 34) : (contextKeys e).length = e.nr.toNat := by
  simp [contextKeys, hd]

/-- Encryption is one forward round after the other: round `i` uses the key at index `i` (spec/43_cipher_context.md R141). -/
theorem encryptWords_take_succ {ks : List Word} {i : Nat} {k : Word} (h : ks[i]? = some k) (x : Word × Word) :
    encryptWords (ks.take (i + 1)) x = roundForward k (encryptWords (ks.take i) x) := by
  rw [encryptWords, List.take_add_one, h, List.foldl_append]
  rfl

/-- Decryption's last round uses the first key (spec/43_cipher_context.md R145). -/
theorem decryptWords_cons (k : Word) (ks : List Word) (x : Word × Word) :
    decryptWords (k :: ks) x = roundInverse k (decryptWords ks x) := by
  rw [decryptWords, List.reverse_cons, List.foldl_append]
  rfl

/-- Decryption is one inverse round after the other: the round with the key at index `i` comes after those with the keys above
(spec/43_cipher_context.md R145). -/
theorem decryptWords_drop {ks : List Word} {i : Nat} {k : Word} (h : ks[i]? = some k) (x : Word × Word) :
    decryptWords (ks.drop i) x = roundInverse k (decryptWords (ks.drop (i + 1)) x) := by
  obtain ⟨hi, rfl⟩ := List.getElem?_eq_some_iff.mp h
  rw [List.drop_eq_getElem_cons hi, decryptWords_cons]

/-- Decryption undoes encryption under the same round keys. -/
theorem decryptWords_encryptWords (ks : List Word) (x : Word × Word) : decryptWords ks (encryptWords ks x) = x := by
  induction ks generalizing x with
  | nil => rfl
  | cons k ks ih => rw [decryptWords_cons, encryptWords, List.foldl_cons, ← encryptWords, ih, roundInverse_roundForward]

/-- Encryption undoes decryption under the same round keys. -/
theorem encryptWords_decryptWords (ks : List Word) (x : Word × Word) : encryptWords ks (decryptWords ks x) = x := by
  induction ks with
  | nil => rfl
  | cons k ks ih => rw [decryptWords_cons, encryptWords, List.foldl_cons, ← encryptWords, roundForward_roundInverse, ih]

/-! ### ENC and DEC (spec/43_cipher_context.md R140, R144) -/

/-- The words of ENC before round `i`: the block under the first `i` round keys (spec/43_cipher_context.md R141). -/
def encWords (ss : Slot) (e : Engine) (i : Nat) : Word × Word := encryptWords ((contextKeys e).take i) (loadBlock ss e)

/-- The words of DEC after the round with `RK[i]`, before it at `i + 1`: the block under the round keys from `i` up
(spec/43_cipher_context.md R145). -/
def decWords (ss : Slot) (e : Engine) (i : Nat) : Word × Word := decryptWords ((contextKeys e).drop i) (loadBlock ss e)

section
variable (ss : Slot) {e : Engine}

/-- Round `i` of ENC. -/
theorem encWords_succ {i : Nat} {k : Word} (hi : i < e.nr.toNat) (hk : e.rk[i]? = some k) :
    encWords ss e (i + 1) = roundForward k (encWords ss e i) :=
  encryptWords_take_succ ((contextKeys_getElem? hi).trans hk) _

/-- The words ENC stores are those before round `NR`. -/
theorem encWords_nr (hd : e.nr.toNat ≤ 34) : encWords ss e e.nr.toNat = encryptWords (contextKeys e) (loadBlock ss e) := by
  rw [encWords, List.take_of_length_le (contextKeys_length hd).le]

/-- The round of DEC with `RK[i]`. -/
theorem decWords_eq_roundInverse {i : Nat} {k : Word} (hi : i < e.nr.toNat) (hk : e.rk[i]? = some k) :
    decWords ss e i = roundInverse k (decWords ss e (i + 1)) :=
  decryptWords_drop ((contextKeys_getElem? hi).trans hk) _

/-- DEC starts from the block it reads. -/
theorem decWords_nr (hd : e.nr.toNat ≤ 34) : decWords ss e e.nr.toNat = loadBlock ss e := by
  rw [decWords, List.drop_of_length_le (contextKeys_length hd).le]
  rfl

end

/-- What ENC and DEC have in common outside the fatal state: the two failures, and what a body that completes with the words `x`
leaves (spec/43_cipher_context.md R140, R144). -/
theorem runCommand_withContext_completeBlock (s : State) (ds : Slot) (dlen slen : Nat) {x : Word × Word} {ridx : BitVec 6}
    {body : Engine → Engine} (hbody : body s.toEngine = completeBlock ds x ridx s.toEngine) (hf : s.fcause = none) :
    (s.nr = 0 → runCommand (withContext dlen slen body) s = .next { s with fcause := some .noctx }) ∧
    (s.nr ≠ 0 → ¬(slen = 16 ∧ dlen = 16) →
      runCommand (withContext dlen slen body) s = .next { s with fcause := some .buflen }) ∧
    (s.nr ≠ 0 → s.nr.toNat ≤ 34 → slen = 16 → dlen = 16 →
      ∃ t : State, runCommand (withContext dlen slen body) s = .next t ∧
        (readSlot ds t.toEngine).toList = bytes64 x.1 ++ bytes64 x.2 ∧ t.err = .ok ∧ t.fcause = none) := by
  refine ⟨fun hn => runCommand_eq_next hf (if_pos hn), fun hn hl => runCommand_eq_next hf ?_, ?_⟩
  · exact (if_neg hn).trans (if_pos (by simpa [← bufferLengthsOk_iff] using hl))
  · rintro hn hd rfl rfl
    refine ⟨_, runCommand_eq_next hf (withContext_complete hn rfl hd), ?_⟩
    rw [hbody]
    exact ⟨readSlot_completeBlock .., completeBlock_err .., (completeBlock_fcause ..).trans hf⟩

/-- Settles O15: the words go from one round to the next as `encWords` does, and those before round `NR` are stored. -/
theorem encEncryptsTheBlock : Obligations.EncEncryptsTheBlock := by
  intro s ds ss dlen slen hf
  obtain ⟨hnoctx, hbuflen, hcomplete⟩ := runCommand_withContext_completeBlock (body := encBody ds ss) s ds dlen slen rfl hf
  refine ⟨hnoctx, hbuflen, fun hn hd hs hl => ?_⟩
  obtain ⟨t, hexec, hslot, herr, hfcause⟩ := hcomplete hn hd hs hl
  refine ⟨t, encWords ss s.toEngine, hexec, rfl, fun i hi => ?_, by rw [encWords_nr ss hd, hslot], herr, hfcause⟩
  have hk : s.rk[i]? = some s.rk[i] := Vector.getElem?_eq_getElem (by omega)
  exact ⟨_, hk, encWords_succ ss hi hk⟩

/-- Settles O16: the words go from one round to the next as `decWords` does, and those after the round with `RK[0]` are stored. -/
theorem decDecryptsTheBlock : Obligations.DecDecryptsTheBlock := by
  intro s ds ss dlen slen hf
  obtain ⟨hnoctx, hbuflen, hcomplete⟩ := runCommand_withContext_completeBlock (body := decBody ds ss) s ds dlen slen rfl hf
  refine ⟨hnoctx, hbuflen, fun hn hd hs hl => ?_⟩
  obtain ⟨t, hexec, hslot, herr, hfcause⟩ := hcomplete hn hd hs hl
  refine ⟨t, decWords ss s.toEngine, hexec, decWords_nr ss hd, fun i hi => ?_, hslot, herr, hfcause⟩
  have hk : s.rk[i]? = some s.rk[i] := Vector.getElem?_eq_getElem (by omega)
  exact ⟨_, hk, decWords_eq_roundInverse ss hi hk⟩

/-! ### Blocks as words (spec/43_cipher_context.md R147, R148) -/

/-- The sixteen bytes of a block and its two words: `LoadBlock` one way, `StoreBlock` the other. -/
def blockWords : Vector Byte 16 ≃ Word × Word where
  toFun v := (be64 (slice v.toList 0 8), be64 (slice v.toList 8 8))
  invFun x := padTo 16 (bytes64 x.1 ++ bytes64 x.2)
  left_inv v := padTo_loadBlock .b0 { Engine.reset with buf0 := v }
  right_inv x := loadBlock_storeBlock .b0 x Engine.reset

/-- Slots that load as the same words hold the same block. -/
theorem readSlot_eq_of_loadBlock_eq {s d : Slot} {e e' : Engine} (h : loadBlock s e = loadBlock d e') :
    readSlot s e = readSlot d e' := blockWords.injective h

/-! ### ENC and DEC undo each other (spec/43_cipher_context.md R146) -/

/-- Encryption of the two words under fixed round keys, with decryption as its inverse. -/
def cipherWords (ks : List Word) : Word × Word ≃ Word × Word where
  toFun := encryptWords ks
  invFun := decryptWords ks
  left_inv := decryptWords_encryptWords ks
  right_inv := encryptWords_decryptWords ks

/-- Encryption of a block of sixteen bytes under fixed round keys. -/
def cipherBlock (ks : List Word) : Vector Byte 16 ≃ Vector Byte 16 :=
  (blockWords.trans (cipherWords ks)).trans blockWords.symm

/-- ENC leaves the encryption of the source block in the destination slot. -/
theorem readSlot_encBody (ds ss : Slot) (e : Engine) :
    readSlot ds (encBody ds ss e) = cipherBlock (contextKeys e) (readSlot ss e) := readSlot_completeBlock_eq ..

/-- DEC leaves the decryption of the source block in the destination slot. -/
theorem readSlot_decBody (ds ss : Slot) (e : Engine) :
    readSlot ds (decBody ds ss e) = (cipherBlock (contextKeys e)).symm (readSlot ss e) := readSlot_completeBlock_eq ..

/-- ENC keeps the round keys of the context. -/
theorem contextKeys_encBody (ds ss : Slot) (e : Engine) : contextKeys (encBody ds ss e) = contextKeys e :=
  contextKeys_completeBlock ..

/-- DEC keeps the round keys of the context. -/
theorem contextKeys_decBody (ds ss : Slot) (e : Engine) : contextKeys (decBody ds ss e) = contextKeys e :=
  contextKeys_completeBlock ..

/-- A slot write keeps the round keys of the context. -/
theorem contextKeys_writeSlot (d : Slot) (v : Vector Byte 16) (e : Engine) : contextKeys (writeSlot d v e) = contextKeys e := by
  rw [contextKeys, writeSlot_rk, writeSlot_nr, contextKeys]

/-- ENC on a block `p` put in the source slot leaves `c` exactly when `c` is the encryption of `p`. -/
theorem exec_enc_writeSlot_iff {s : State} (hf : s.fcause = none) (hn : s.nr ≠ 0) (hd : s.nr.toNat ≤ 34) (t a : Slot)
    (p c : Vector Byte 16) :
    (∃ s1, exec (.enc t 16 a 16) { s with toEngine := writeSlot a p s.toEngine } = .next s1 ∧ readSlot t s1.toEngine = c) ↔
      cipherBlock (contextKeys s.toEngine) p = c := by
  have hexec : exec (.enc t 16 a 16) { s with toEngine := writeSlot a p s.toEngine } =
      .next { s with toEngine := encBody t a (writeSlot a p s.toEngine) } :=
    execEnc_complete (by simpa using hf) (by simpa using hn) (by simpa using hd)
  simp [hexec, readSlot_encBody, contextKeys_writeSlot]

/-- Settles O20: ENC and DEC apply a bijection on blocks and its inverse, which the context alone decides. -/
theorem decryptUndoesEncrypt : Obligations.DecryptUndoesEncrypt := by
  intro s a t u hf hn hd
  refine ⟨⟨_, _, execEnc_complete hf hn hd, execDec_complete ?_ ?_ ?_, ?_⟩,
    ⟨_, _, execDec_complete hf hn hd, execEnc_complete ?_ ?_ ?_, ?_⟩, fun c => ?_⟩
  iterate 3 simpa [encBody]
  · rw [readSlot_decBody, contextKeys_encBody, readSlot_encBody, Equiv.symm_apply_apply]
  iterate 3 simpa [decBody]
  · rw [readSlot_encBody, contextKeys_decBody, readSlot_decBody, Equiv.apply_symm_apply]
  · simp only [exec_enc_writeSlot_iff hf hn hd]
    exact (cipherBlock _).bijective.existsUnique c

/-! ### In place and out of place (spec/43_cipher_context.md R149) -/

/-- A block command that completes stores words that its destination slot does not decide. -/
theorem exec_block_completes {s : State} {command : Slot → Nat → Slot → Nat → Instr} (hf : s.fcause = none)
    (h : ((command = Instr.enc ∨ command = Instr.dec) ∧ s.nr ≠ 0 ∧ s.nr.toNat ≤ 34) ∨
      command = Instr.rndf ∨ command = Instr.rndi) (ss : Slot) :
    ∃ (x : Word × Word) (ridx : BitVec 6), ∀ ds,
      exec (command ds 16 ss 16) s = .next { s with toEngine := completeBlock ds x ridx s.toEngine } := by
  rcases h with ⟨rfl | rfl, hn, hd⟩ | rfl | rfl
  · exact ⟨_, _, fun _ => execEnc_complete hf hn hd⟩
  · exact ⟨_, _, fun _ => execDec_complete hf hn hd⟩
  · exact ⟨_, _, fun _ => execRndf_complete hf⟩
  · exact ⟨_, _, fun _ => execRndi_complete hf⟩

/-- Settles O21: the command stores the same words whichever slot is its destination. -/
theorem inPlaceEqualsOutOfPlace : Obligations.InPlaceEqualsOutOfPlace := by
  intro s ss ds command hf hne h
  obtain ⟨x, ridx, hexec⟩ := exec_block_completes hf h ss
  refine ⟨_, _, hexec ss, hexec ds, ?_, readSlot_completeBlock_of_ne hne.symm ..⟩
  rw [readSlot_completeBlock_eq, readSlot_completeBlock_eq]

/-! ### The host's loop of single rounds (spec/43_cipher_context.md R153 item 7) -/

/-- A round key written to `KOP` is the operand. -/
theorem operandKey_with_kop (k : Word) (e : Engine) : operandKey { e with kop := padTo 8 (bytes64 k) } = k := by
  rw [operandKey_eq, padTo_toList (bytes64_length k), be64_bytes64]

/-- The host's loop goes on from the state in which its first command completes. -/
theorem hostRoundLoop_cons {command : Instr} {k : Word} {s t : State}
    (h : exec command { s with kop := padTo 8 (bytes64 k) } = .next t) (ks : List Word) :
    hostRoundLoop command (k :: ks) s = hostRoundLoop command ks t := by
  rw [hostRoundLoop, h]

/-- The host's loop of a single-round command in place applies its round once per key, in the order of the keys. -/
theorem hostRoundLoop_singleRound {round : Word → Word × Word → Word × Word} {command : Instr} {d : Slot}
    (hcommand : ∀ s : State, s.fcause = none → exec command s = .next { s with toEngine := singleRound round d d s.toEngine })
    (ks : List Word) {s : State} (hf : s.fcause = none) :
    ∃ u, hostRoundLoop command ks s = .next u ∧
      loadBlock d u.toEngine = ks.foldl (fun y k => round k y) (loadBlock d s.toEngine) := by
  induction ks generalizing s with
  | nil => exact ⟨s, rfl, rfl⟩
  | cons k ks ih =>
    have hload : loadBlock d { s.toEngine with kop := padTo 8 (bytes64 k) } = loadBlock d s.toEngine :=
      loadBlock_with_staging s.key _ d s.toEngine
    obtain ⟨u, hloop, hwords⟩ :=
      ih (s := { s with toEngine := singleRound round d d { s.toEngine with kop := padTo 8 (bytes64 k) } })
        ((completeBlock_fcause ..).trans hf)
    refine ⟨u, (hostRoundLoop_cons (hcommand _ hf) ks).trans hloop, ?_⟩
    rw [hwords, singleRound, loadBlock_completeBlock, operandKey_with_kop, hload, List.foldl_cons]

/-- Settles O22: the loop over the round keys, ascending or descending, folds the same rounds as the cipher. -/
theorem cipherIsIteratedSingleRounds : Obligations.CipherIsIteratedSingleRounds := by
  intro s hf hn hd
  obtain ⟨u, hforward, hencrypted⟩ := hostRoundLoop_singleRound (command := .rndf .b0 16 .b0 16) (round := roundForward)
    (fun _ => execRndf_complete) (contextKeys s.toEngine) hf
  obtain ⟨v, hinverse, hdecrypted⟩ := hostRoundLoop_singleRound (command := .rndi .b0 16 .b0 16) (round := roundInverse)
    (fun _ => execRndi_complete) (contextKeys s.toEngine).reverse hf
  exact ⟨⟨_, u, execEnc_complete hf hn hd, hforward,
      readSlot_eq_of_loadBlock_eq (s := .b0) (d := .b0) (hencrypted.trans (loadBlock_completeBlock ..).symm)⟩,
    ⟨_, v, execDec_complete hf hn hd, hinverse,
      readSlot_eq_of_loadBlock_eq (s := .b0) (d := .b0) (hdecrypted.trans (loadBlock_completeBlock ..).symm)⟩⟩

/-! ### The micro-steps of ENC and DEC (spec/43_cipher_context.md R150) -/

/-- The engine inside ENC or DEC with the words `x` and the round index `i`, which stand in the hidden registers alone
(spec/43_cipher_context.md R150). -/
def ciphering (phase : Phase) (i : Nat) (x : Word × Word) (e : Engine) : Engine :=
  { e with seq := { e.seq with x1 := x.1, x2 := x.2, ridx := BitVec.ofNat 6 i, phase := phase } }

theorem ciphering_ridx_toNat (phase : Phase) {i : Nat} (hi : i < 64) (x : Word × Word) (e : Engine) :
    (ciphering phase i x e).seq.ridx.toNat = i := by
  rw [ciphering, BitVec.toNat_ofNat, Nat.mod_eq_of_lt hi]

/-- The round index one below. -/
theorem ofNat_succ_sub_one (i : Nat) : BitVec.ofNat 6 (i + 1) - 1 = BitVec.ofNat 6 i := by
  rw [BitVec.ofNat_add]
  exact BitVec.add_sub_cancel ..

/-- `finish` stores the words as the command's rule does. -/
theorem blockFinish_ciphering (ds : Slot) (phase : Phase) (i : Nat) (x : Word × Word) (e : Engine) :
    blockFinish ds (ciphering phase i x e) = completeBlock ds x (BitVec.ofNat 6 i) e := by
  cases ds <;> rfl

/-- A micro-step of ENC below `NR` is one forward round (spec/43_cipher_context.md R150). -/
theorem encMicro_step (ds : Slot) {e : Engine} {k : Word} (hp : e.seq.phase = .encr) (h : e.seq.ridx < e.nr)
    (hk : e.rk[e.seq.ridx.toNat]? = some k) : encMicro ds e = some { e with seq := { e.seq with
      x1 := (roundForward k (e.seq.x1, e.seq.x2)).1
      x2 := (roundForward k (e.seq.x1, e.seq.x2)).2
      ridx := e.seq.ridx + 1 } } := by
  simp only [encMicro, hp, ne_eq, not_true_eq_false, if_false, if_pos h, hk]

/-- A micro-step of ENC at `NR` is `finish` (spec/43_cipher_context.md R150). -/
theorem encMicro_finish (ds : Slot) {e : Engine} (hp : e.seq.phase = .encr) (h : e.seq.ridx = e.nr) :
    encMicro ds e = some (blockFinish ds e) := by
  rw [encMicro, if_neg (not_not.mpr hp), if_neg (h ▸ BitVec.lt_irrefl _), if_pos h]

/-- A micro-step of DEC above index 0 is one inverse round (spec/43_cipher_context.md R150). -/
theorem decMicro_step (ds : Slot) {e : Engine} {k : Word} (hp : e.seq.phase = .decr) (h : e.seq.ridx ≠ 0)
    (hk : e.rk[e.seq.ridx.toNat]? = some k) : decMicro ds e = some { e with seq := { e.seq with
      x1 := (roundInverse k (e.seq.x1, e.seq.x2)).1
      x2 := (roundInverse k (e.seq.x1, e.seq.x2)).2
      ridx := e.seq.ridx - 1 } } := by
  simp only [decMicro, hp, ne_eq, not_true_eq_false, if_false, if_neg h, hk]

/-- The micro-step of DEC at index 0 is the last inverse round and `finish` (spec/43_cipher_context.md R150). -/
theorem decMicro_finish (ds : Slot) {e : Engine} {k : Word} (hp : e.seq.phase = .decr) (h : e.seq.ridx = 0)
    (hk : e.rk[0]? = some k) : decMicro ds e = some (blockFinish ds { e with seq := { e.seq with
      x1 := (roundInverse k (e.seq.x1, e.seq.x2)).1
      x2 := (roundInverse k (e.seq.x1, e.seq.x2)).2 } }) := by
  have hk : e.rk[(0 : BitVec 6).toNat]? = some k := hk
  simp only [decMicro, hp, ne_eq, not_true_eq_false, if_false, h, if_true, hk]

section
variable (ds : Slot) {i : Nat} {k : Word} (x : Word × Word) (e : Engine)

/-- A micro-step of ENC leads from the words before round `i` to those after it. -/
theorem encMicro_ciphering (hi : i < e.nr.toNat) (hk : e.rk[i]? = some k) :
    encMicro ds (ciphering .encr i x e) = some (ciphering .encr (i + 1) (roundForward k x) e) := by
  have hridx := ciphering_ridx_toNat .encr (i := i) (by omega) x e
  rw [encMicro_step ds rfl (by rw [BitVec.lt_def, hridx]; exact hi) (by rw [hridx]; exact hk)]
  simp only [ciphering, BitVec.ofNat_add]
  rfl

/-- A micro-step of DEC leads from the words before the round with `RK[i + 1]` to those after it. -/
theorem decMicro_ciphering (hi : i + 1 < 64) (hk : e.rk[i + 1]? = some k) :
    decMicro ds (ciphering .decr (i + 1) x e) = some (ciphering .decr i (roundInverse k x) e) := by
  have hridx := ciphering_ridx_toNat .decr hi x e
  rw [decMicro_step ds rfl (fun h => by simp [h] at hridx) (by rw [hridx]; exact hk)]
  simp only [ciphering, ofNat_succ_sub_one]

/-- The micro-step of DEC with `RK[0]` ends the command with the words after its round. -/
theorem decMicro_ciphering_zero (hk : e.rk[0]? = some k) :
    decMicro ds (ciphering .decr 0 x e) = some (completeBlock ds (roundInverse k x) 0 e) :=
  (decMicro_finish ds (e := ciphering .decr 0 x e) rfl rfl hk).trans
    (congrArg some (blockFinish_ciphering ds .decr 0 (roundInverse k x) e))

end

/-- The micro-steps of ENC before `finish` are the rounds of the context. -/
theorem runMicro_encMicro_rounds (ds ss : Slot) {e : Engine} (hd : e.nr.toNat ≤ 34) :
    runMicro (encMicro ds) e.nr.toNat (encStart ss e) =
      some (ciphering .encr e.nr.toNat (encryptWords (contextKeys e) (loadBlock ss e)) e) := by
  rw [← encWords_nr ss hd]
  refine runMicro_family (f := fun i => ciphering .encr i (encWords ss e i) e) fun i hi => ?_
  have hk : e.rk[i]? = some e.rk[i] := Vector.getElem?_eq_getElem (by omega)
  rw [encMicro_ciphering ds _ e hi hk, encWords_succ ss hi hk]

/-- All micro-steps of ENC lead to the engine its rule gives. -/
theorem runMicro_encMicro (ds ss : Slot) {e : Engine} (hd : e.nr.toNat ≤ 34) :
    runMicro (encMicro ds) (e.nr.toNat + 1) (encStart ss e) = some (encBody ds ss e) := by
  rw [runMicro_succ, runMicro_encMicro_rounds ds ss hd, Option.bind_some, encMicro_finish ds rfl (BitVec.ofNat_toNat ..),
    blockFinish_ciphering, BitVec.ofNat_toNat]
  rfl

/-- The micro-steps of DEC from index `i` down lead to the engine its rule gives. -/
theorem runMicro_decMicro_ciphering (ds ss : Slot) {e : Engine} (hd : e.nr.toNat ≤ 34) {i : Nat} (hi : i < e.nr.toNat) :
    runMicro (decMicro ds) (i + 1) (ciphering .decr i (decWords ss e (i + 1)) e) = some (decBody ds ss e) := by
  induction i with
  | zero =>
    have hk : e.rk[0]? = some e.rk[0] := rfl
    rw [runMicro, decMicro_ciphering_zero ds _ e hk, ← decWords_eq_roundInverse ss hi hk]
    rfl
  | succ i ih =>
    have hk : e.rk[i + 1]? = some e.rk[i + 1] := Vector.getElem?_eq_getElem (by omega)
    rw [runMicro, decMicro_ciphering ds _ e (by omega) hk, ← decWords_eq_roundInverse ss hi hk]
    exact ih (by omega)

/-- DEC starts at the last round key, with the block it reads. -/
theorem decStart_eq (ss : Slot) {e : Engine} {i : Nat} (hd : e.nr.toNat ≤ 34) (hi : e.nr.toNat = i + 1) :
    decStart ss e = ciphering .decr i (decWords ss e (i + 1)) e := by
  have hridx : e.nr - 1 = BitVec.ofNat 6 i := by
    rw [← ofNat_succ_sub_one, ← hi, BitVec.ofNat_toNat]
    rfl
  rw [decStart, hridx, ← hi, decWords_nr ss hd]
  rfl

/-- All micro-steps of DEC lead to the engine its rule gives. -/
theorem runMicro_decMicro (ds ss : Slot) {e : Engine} (hn : e.nr ≠ 0) (hd : e.nr.toNat ≤ 34) :
    runMicro (decMicro ds) e.nr.toNat (decStart ss e) = some (decBody ds ss e) := by
  obtain ⟨i, hi⟩ : ∃ i, e.nr.toNat = i + 1 :=
    Nat.exists_eq_add_one_of_ne_zero fun h => hn (BitVec.eq_of_toNat_eq h)
  rw [hi, decStart_eq ss hd hi]
  exact runMicro_decMicro_ciphering ds ss hd (by omega)

/-- Settles O56: each micro-step is one round on the words in the hidden registers, and the last one stores them. -/
theorem blockMicroStepsReachTheRule : Obligations.BlockMicroStepsReachTheRule := by
  intro s ds ss hf hn hd
  exact ⟨⟨_, execEnc_complete hf hn hd, runMicro_encMicro ds ss hd⟩,
    ⟨_, execDec_complete hf hn hd, runMicro_decMicro ds ss hn hd⟩⟩

/-! ### `BLKSZ` (spec/43_cipher_context.md R156) -/

/-- A read of the whole region `BLKSZ` delivers 16, whatever the engine holds (spec/10_state.md R31). -/
theorem readBytes_blksz (e : Engine) : readBytes e 0x008 4 = some [0x00, 0x00, 0x00, 0x10] :=
  readBytes_of_byteAt (bs := bytes32 blockSizeWord) fun _ hj => byteAt_region (r := .blksz) (by decide) e hj

/-- Settles O38: the read is admitted in every state and delivers the whole region. -/
theorem blockSizeReadsSixteen : Obligations.BlockSizeReadsSixteen := by
  intro s rest hs
  rw [step_memRead hs (verdict_memRead_performed_iff.mpr (by decide)), performRead, readBytes_blksz]
  rfl

end Sys2Proof.Machine
end

section
/-!
PROOFS. The exceptions of spec/60_exceptions.md: that every command answers, and what it can answer (R178, R179), the fatal state
and its entry (R174, R175), and that nothing stops the engine (R170, R182).
-/

namespace Sys2Proof.Machine

/-! ### Every command answers (spec/60_exceptions.md R178, R179) -/

/-- The fatal state discards every command (spec/60_exceptions.md R175). -/
theorem exec_fatal {i : Instr} {s : State} (hf : s.fcause ≠ none) : exec i s = .next s := by
  cases i with
  | keyx | enc | dec | rndf | rndi => exact runCommand_fatal hf

/-- Settles O45: every command makes the fatal-state test first. -/
theorem fatalStateDiscardsCommands : Obligations.FatalStateDiscardsCommands :=
  fun _ _ hf => exec_fatal hf

theorem keyxBody_answers (klen : Nat) (e : Engine) : ∃ e', keyxBody klen e = .next e' := by
  unfold keyxBody
  split
  · exact ⟨_, rfl⟩
  · exact ⟨_, rfl⟩

/-- The checks of `ENC` and `DEC` stop for a round count past the file only. -/
theorem withContext_answers {dlen slen : Nat} {body : Engine → Engine} {e : Engine} (hn : e.nr.toNat ≤ 34) :
    ∃ e', withContext dlen slen body e = .next e' := by
  unfold withContext
  split
  · exact ⟨_, rfl⟩
  · split
    · exact ⟨_, rfl⟩
    · rw [if_neg (Nat.not_lt.mpr hn)]
      exact ⟨_, rfl⟩

theorem withBuffers_answers {dlen slen : Nat} {body : Engine → Engine} {e : Engine} :
    ∃ e', withBuffers dlen slen body e = .next e' := by
  unfold withBuffers
  split
  · exact ⟨_, rfl⟩
  · exact ⟨_, rfl⟩

/-- A command whose body answers an engine answers a state, in the fatal state too. -/
theorem runCommand_answers {body : Engine → EngineResult} {s : State} (h : ∃ e, body s.toEngine = .next e) :
    ∃ t, runCommand body s = .next t := by
  by_cases hf : s.fcause = none
  · obtain ⟨e, he⟩ := h
    exact ⟨_, runCommand_eq_next hf he⟩
  · exact ⟨s, runCommand_fatal hf⟩

/-- Every command answers a next state, where the round loop stays in the file. -/
theorem exec_answers (i : Instr) {s : State} (hn : s.nr.toNat ≤ 34) : ∃ t, exec i s = .next t := by
  cases i with
  | keyx klen => exact runCommand_answers (keyxBody_answers klen _)
  | enc | dec => exact runCommand_answers (withContext_answers hn)
  | rndf | rndi => exact runCommand_answers withBuffers_answers

/-- Settles O25: the outcomes that `exec_cases` lists; a new context and a completed block are the successes. -/
theorem commandsAreAllOrNothing : Obligations.CommandsAreAllOrNothing := by
  intro i s hn
  obtain ⟨t, ht⟩ := exec_answers i hn
  refine ⟨t, ht, ?_⟩
  rcases exec_cases ht with ⟨_, rfl⟩ |
      ⟨_, ⟨_, _, _, rfl⟩ | ⟨cause, rfl⟩ | ⟨klen, _, _, rfl⟩ | ⟨d, _, x, ridx, _, rfl⟩⟩
  · exact .inl rfl
  · exact .inr (.inr (.inl rfl))
  · exact .inr (.inl ⟨cause, rfl⟩)
  · exact .inr (.inr (.inr ⟨constructContext_err klen _, constructContext_fcause klen _⟩))
  · exact .inr (.inr (.inr ⟨completeBlock_err d x ridx _, completeBlock_fcause d x ridx _⟩))

/-! ### The entry into the fatal state (spec/60_exceptions.md R174) -/

/-- A command that takes the engine into the fatal state changes `FCAUSE` alone. -/
theorem exec_enters_fatal {i : Instr} {s t : State} {cause : FatalCause} (hf : s.fcause = none) (h : exec i s = .next t)
    (ht : t.fcause = some cause) : t = { s with fcause := some cause } := by
  have kept (he : t.fcause = s.fcause) : t = { s with fcause := some cause } := by simp [he, hf] at ht
  rcases exec_cases h with ⟨hne, _⟩ | ⟨_, ⟨_, _, _, rfl⟩ | ⟨_, rfl⟩ | ⟨klen, _, _, rfl⟩ | ⟨d, _, x, ridx, _, rfl⟩⟩
  · exact absurd hf hne
  · exact kept rfl
  · rw [← ht]
    rfl
  · exact kept (constructContext_fcause klen _)
  · exact kept (completeBlock_fcause d x ridx _)

/-- Settles O47: of the effects of a step, only an illegal word and a command set a cause. -/
theorem fatalEntryChangesFcauseOnly : Obligations.FatalEntryChangesFcauseOnly := by
  intro s t cause hf h ht
  have notKept (he : t.fcause = s.fcause) : False := by simp [he, hf] at ht
  rcases step_cases h with ⟨_, rfl⟩ | ⟨_, rest, _, ⟨_, rfl⟩ | ⟨_, rfl⟩ | ⟨_, rfl⟩ | ⟨_, _, _, _, _, _, rfl⟩ | hwrite⟩
  · exact (notKept rfl).elim
  · exact (notKept rfl).elim
  · exact (notKept rfl).elim
  · cases ht
  · exact (notKept rfl).elim
  · obtain ⟨off, v, row, _, _, _, ⟨_, rfl⟩ | ⟨_, _, rfl⟩ | ⟨_, i, _, hx⟩⟩ := hwrite
    · exact (notKept (writeRegion_fcause ..)).elim
    · cases ht
      exact ⟨rfl, rfl⟩
    · rw [exec_enters_fatal (s := { s with script := rest, answer := .done }) hf hx ht]
      exact ⟨rfl, rfl⟩

/-! ### The fatal state (spec/60_exceptions.md R175) -/

/-- A step whose host step is an admitted read delivers the bytes the image has there. -/
theorem step_read {s : State} {off n : Nat} {rest : List HostStep} {bs : List Byte} (hs : s.script = .memRead off n :: rest)
    (hv : verdict s.toEngine (.memRead off n) = .performed) (hbs : readBytes s.toEngine off n = some bs) :
    step s = .next { s with script := rest, answer := .data bs } := by
  rw [step_memRead hs hv]
  simp [performRead, hbs, answering]

/-- In the fatal state every step but `Reset` keeps the engine and takes the host step that waits. -/
theorem step_fatal_keeps_engine {s t : State} {h : HostStep} {rest : List HostStep} (hf : s.fcause ≠ none)
    (hs : s.script = h :: rest) (hreset : h ≠ .reset) (hstep : step s = .next t) :
    t.toEngine = s.toEngine ∧ t.script = rest := by
  rcases step_cases hstep with ⟨hnil, _⟩ | ⟨h', rest', hs', hcase⟩
  · simp [hs] at hnil
  obtain ⟨rfl, rfl⟩ : h = h' ∧ rest = rest' := List.cons.inj (hs.symm.trans hs')
  rcases hcase with ⟨_, rfl⟩ | ⟨_, rfl⟩ | ⟨hr, _⟩ | ⟨_, _, _, _, _, _, rfl⟩ | ⟨_, _, _, _, _, hlive, _⟩
  · exact ⟨rfl, rfl⟩
  · exact ⟨rfl, rfl⟩
  · exact absurd hr hreset
  · exact ⟨rfl, rfl⟩
  · exact absurd hlive hf

/-- Settles O46: the verdict decides the access, and the fatal state discards every admitted write. -/
theorem fatalStateIsAbsorbing : Obligations.FatalStateIsAbsorbing := by
  intro s h rest hf hs
  refine ⟨?_, ?_, refusedAccessChangesNothing s h rest hs, fun t hreset ht => step_fatal_keeps_engine hf hs hreset ht⟩
  · rintro off v rfl hv
    exact step_discarded hs (verdict_memWrite_ne_refused_iff.mp hv) hf
  · rintro off n bs rfl hv hbs
    have hadmitted := not_imp_comm.mp verdict_memRead_refused_iff.mpr hv
    exact step_read hs (verdict_memRead_performed_iff.mpr hadmitted) hbs

/-! ### Nothing stops the engine (spec/60_exceptions.md R170, R182) -/

/-- A legal round count stays inside the round-key file (spec/10_state.md R33 item 1). -/
theorem nr_le_of_legal {e : Engine} (h : e.RoundCountLegal) : e.nr.toNat ≤ 34 := by
  rcases h with h | h | h | h <;> rw [h] <;> decide

/-- A dispatched word answers, illegal or not. -/
theorem dispatchWord_answers (w : Word32) {s : State} (hn : s.nr.toNat ≤ 34) : ∃ t, dispatchWord exec w s = .next t := by
  by_cases hf : s.fcause = none
  · cases hd : decode w with
    | illegal why => exact ⟨_, dispatchWord_illegal hf hd⟩
    | command i =>
      rw [dispatchWord_command hf hd]
      exact exec_answers i hn
  · exact ⟨s, dispatchWord_fatal hf⟩

theorem performWrite_answers (off : Nat) (v : List Byte) {s : State} (hn : s.nr.toNat ≤ 34) :
    ∃ t, performWrite exec off v s = .next t := by
  unfold performWrite
  split
  · exact ⟨_, rfl⟩
  · split
    · exact dispatchWord_answers _ (s := answering .done s) hn
    · exact ⟨_, rfl⟩

/-- An admitted read answers: a legal round count has a name. -/
theorem performRead_answers {off n : Nat} {s : State} (hnr : s.toEngine.RoundCountLegal)
    (h : (admittedRow .read off n).isSome) : ∃ t, performRead off n s = .next t := by
  obtain ⟨bs, hbs⟩ := Option.isSome_iff_exists.mp (readBytes_isSome_of_admitted hnr h)
  exact ⟨answering (.data bs) s, by rw [performRead, hbs]⟩

/-- Every host step answers, where the round count is legal. -/
theorem performHostStep_answers (h : HostStep) {s : State} (hnr : s.toEngine.RoundCountLegal) :
    ∃ t, performHostStep exec h s = .next t := by
  unfold performHostStep
  cases hv : verdict s.toEngine h with
  | refused | discarded => exact ⟨_, rfl⟩
  | performed => cases h with
    | reset => exact ⟨_, rfl⟩
    | memRead off n => exact performRead_answers hnr (verdict_memRead_performed_iff.mp hv)
    | memWrite off v => exact performWrite_answers off v (nr_le_of_legal hnr)

/-- Settles O53: of the invariants it needs the legal round count, which keeps both faults of the model away. -/
theorem nothingStopsTheEngine : Obligations.NothingStopsTheEngine := by
  rintro s ⟨hnr, _⟩
  cases hs : s.script with
  | nil => exact ⟨s, by simp only [step, takeHostStep, hs]⟩
  | cons h rest =>
    rw [step_of_script hs]
    exact performHostStep_answers h hnr

end Sys2Proof.Machine
end

section
/-!
PROOFS. The reset of spec/70_reset_and_hazards.md: what `Reset` does (R200), and that no other step clears `FCAUSE` or `NR` (R202).
-/

namespace Sys2Proof.Machine

/-! ### What `Reset` does, and that it is the only exit (spec/70_reset_and_hazards.md R200, R202) -/

/-- `Reset` performs whatever the state is, the fatal state included. -/
theorem step_reset {s : State} {rest : List HostStep} (hs : s.script = .reset :: rest) :
    step s = .next { toEngine := Engine.reset, script := rest, answer := .silent } := by
  simp only [step_of_script hs, performHostStep, verdict, resetEngine]

/-- A new context is a context: its round count is 32, 33 or 34 (spec/41_key_schedule.md R102). -/
theorem constructContext_nr_ne_zero {klen : Nat} (hk : keyLengthOk klen = true) (e : Engine) :
    (constructContext klen e).nr ≠ 0 := by
  obtain ⟨-, -, -, -, hcount⟩ := roundCount_of_keyLengthOk hk
  rw [constructContext_nr]
  rcases hcount with h | h | h <;> rw [h] <;> decide

/-- `FCAUSE` changes outside `Reset` only from 0, so a step that clears it is `Reset`. -/
theorem reset_of_step_clears_fcause {s t : State} (h : step s = .next t) (hs : s.fcause ≠ none) (ht : t.fcause = none) :
    ∃ rest, s.script = .reset :: rest := by
  by_contra hreset
  obtain ⟨-, onlyFromZero⟩ := flagsChangeByCommandsOnly s t h (not_exists.mp hreset)
  obtain ⟨hlive, -⟩ := onlyFromZero (by rw [ht]; exact hs.symm)
  exact hs hlive

/-- Of the effects of a step only a new context and `Reset` touch `NR`, and a new context is not 0. -/
theorem reset_of_step_clears_nr {s t : State} (h : step s = .next t) (hs : s.nr ≠ 0) (ht : t.nr = 0) :
    ∃ rest, s.script = .reset :: rest := by
  replace h := engineStep_of_step h
  generalize t.toEngine = e at h ht
  cases h with
  | reset hscript => exact ⟨_, hscript⟩
  | context _ _ hk => exact absurd ht (constructContext_nr_ne_zero hk _)
  | kept | stored | fatal | badLength | block => exact absurd (by simpa using ht) hs

/-- Settles O50: `Reset` is performed unconditionally, and neither `FCAUSE` nor `NR` is cleared by another step. -/
theorem resetIsTotalAndTheOnlyExit : Obligations.ResetIsTotalAndTheOnlyExit := by
  refine ⟨fun s rest hs => ⟨_, step_reset hs, rfl, rfl⟩, fun s t h hclears => ?_⟩
  rcases hclears with ⟨hs, ht⟩ | ⟨hs, ht⟩
  · exact reset_of_step_clears_fcause h hs ht
  · exact reset_of_step_clears_nr h hs ht

end Sys2Proof.Machine
end
